-- ==== Sys2Proof/Word.lean ====
section
/-! DEFINITION. The machine word: every register of the host's window is 64 bits wide (spec rule R4 `XLEN`, R31). -/

namespace Sys2Proof

/-- A 64-bit register value, bit 0 least significant (R5). -/
abbrev Word := BitVec 64

/-- One byte of the window where a platform lays it out in bytes (R35). -/
abbrev Byte := BitVec 8

end Sys2Proof
end

