-- ==== Sys2Proof/Config.lean ====
section
/-! DEFINITION. What the implementation fixes: the parameters of spec rule R4. -/

namespace Sys2Proof
namespace Config

/-- `NMREG`, the number of matrix registers (R4, R12). -/
abbrev nmreg : Nat := 8

/-- `DMAX`, the largest row count and the largest column count of a matrix register (R4, R12). -/
abbrev dmax : Nat := 8

/-- `BASE`, the byte address of the register window in the host's address space: the spec leaves it
open and no rule reads it (R4, I4), so it is a constant without a value. Log entry 4. -/
opaque base : Nat

end Config
end Sys2Proof
end

