-- ==== Sys2Proof/Syntax.lean ====
section
/-! DEFINITION. The commands of the unit: one constructor for each of the 27 rows of the opcode map
(spec rule R44, opcode_table.json). Operands are the values of the command word's 4-bit fields, read as
unsigned numbers and used as they stand (R45). -/

namespace Sys2Proof

/-- A command of HSD-1. The arguments are the used fields of the command word in the order of the
"fields" column of R44, which is also the operand order of the assembly notation (R50). -/
inductive Instr where
  /-- no effect (R54) -/
  | nop
  /-- clear the recorded fault (R55) -/
  | clrf
  /-- MOD from DIN (R56) -/
  | setmod
  /-- DOUT from MOD (R57) -/
  | getmod
  /-- load the parity-check matrix H from DIN (R58) -/
  | hldh
  /-- load the generator matrix C from DIN (R59) -/
  | hldc
  /-- load the decoder matrix R from DIN (R60) -/
  | hldr
  /-- load the information block V from DIN (R61) -/
  | hldv
  /-- load the codeword block U from DIN (R62) -/
  | hldu
  /-- DOUT from the Hamming register that `i` selects (R63) -/
  | hrd (i : Nat)
  /-- flip bit `j` of U (R64) -/
  | hflip (j : Nat)
  /-- encode V to U (R65) -/
  | henc
  /-- syndrome of U (R66) -/
  | hsyn
  /-- locate the error (R67) -/
  | hloc
  /-- correct the located bit (R68) -/
  | hcor
  /-- project U to V (R69) -/
  | hprj
  /-- give `M[rd]` the shape `i` by `j`, all entries 0 (R77) -/
  | mshape (rd i j : Nat)
  /-- store DIN into entry `[i][j]` of `M[rd]` (R78) -/
  | mst (rd i j : Nat)
  /-- load entry `[i][j]` of `M[ra]` into DOUT (R79) -/
  | mld (ra i j : Nat)
  /-- the shape of `M[ra]` into DOUT (R80) -/
  | mdim (ra : Nat)
  /-- product (R81) -/
  | mmul (rd ra rb : Nat)
  /-- reduction modulo N (R82) -/
  | mred (rd ra : Nat)
  /-- transpose (R86) -/
  | mtrn (rd ra : Nat)
  /-- determinant modulo N (R87) -/
  | mdet (ra : Nat)
  /-- inverse modulo N (R88) -/
  | minv (rd ra : Nat)
  /-- key check (R89) -/
  | mchk (ra : Nat)
  /-- zero test (R90) -/
  | mzt (ra : Nat)
  deriving DecidableEq, Repr

end Sys2Proof
end

