-- ==== Sys2Proof/WellFormed.lean ====
section
/-! DEFINITION. Which terms of `Instr` are commands of the hardware: those whose operands fit the 4-bit
fields of the command word (spec rules R42, R45). A register number 8 to 15 or an index out of range is
well formed: it is encodable, and executing it raises a fault of the spec (R45, R98). -/

namespace Sys2Proof

/-- The value fits a 4-bit field of the command word (R42). -/
def fitsField (n : Nat) : Bool := decide (n < 16)

/-- Every operand fits its field. -/
def Instr.wellFormed : Instr → Bool
  | .nop => true
  | .clrf => true
  | .setmod => true
  | .getmod => true
  | .hldh => true
  | .hldc => true
  | .hldr => true
  | .hldv => true
  | .hldu => true
  | .hrd i => fitsField i
  | .hflip j => fitsField j
  | .henc => true
  | .hsyn => true
  | .hloc => true
  | .hcor => true
  | .hprj => true
  | .mshape rd i j => fitsField rd && fitsField i && fitsField j
  | .mst rd i j => fitsField rd && fitsField i && fitsField j
  | .mld ra i j => fitsField ra && fitsField i && fitsField j
  | .mdim ra => fitsField ra
  | .mmul rd ra rb => fitsField rd && fitsField ra && fitsField rb
  | .mred rd ra => fitsField rd && fitsField ra
  | .mtrn rd ra => fitsField rd && fitsField ra
  | .mdet ra => fitsField ra
  | .minv rd ra => fitsField rd && fitsField ra
  | .mchk ra => fitsField ra
  | .mzt ra => fitsField ra

end Sys2Proof
end

