-- ==== Sys2Proof/Decode.lean ====
section
/-! DEFINITION. Decoding a value written to CMD, and the encoder (spec rules R42 to R48, R50). -/

namespace Sys2Proof

/-- The fields of a command word, as unsigned numbers (R42). -/
structure Fields where
  op : Nat
  rd : Nat
  ra : Nat
  rb : Nat
  i : Nat
  j : Nat
  z : Nat
  deriving DecidableEq, Repr

/-- A row of the opcode map: the mnemonic, the `match` and `mask` columns, and the command the row's
used fields make (R44). -/
structure Row where
  mnemonic : String
  pattern : BitVec 32
  mask : BitVec 32
  build : Fields → Instr

/-- Why a value written to CMD is no command: the three ways of R47. Each of them raises
IllegalCommand (R43; log entry 13). -/
inductive DecodeError where
  /-- a bit of 63:32 is set -/
  | highBits
  /-- the opcode is reserved -/
  | reservedOpcode
  /-- a defined opcode with a 1 in a field it does not use, or in `z` -/
  | strayBits
  deriving DecidableEq, Repr

/-- The fields of a 32-bit command word (R42, R43). -/
def fieldsOf (c : BitVec 32) : Fields where
  op := (c.extractLsb' 24 8).toNat
  rd := (c.extractLsb' 20 4).toNat
  ra := (c.extractLsb' 16 4).toNat
  rb := (c.extractLsb' 12 4).toNat
  i := (c.extractLsb' 8 4).toNat
  j := (c.extractLsb' 4 4).toNat
  z := (c.extractLsb' 0 4).toNat

/-- Opcodes 0x00 to 0x0F, system (R44). -/
def systemRows : List Row := [
  ⟨"NOP", 0x00000000#32, 0xFFFFFFFF#32, fun _ => .nop⟩,
  ⟨"CLRF", 0x01000000#32, 0xFFFFFFFF#32, fun _ => .clrf⟩,
  ⟨"SETMOD", 0x02000000#32, 0xFFFFFFFF#32, fun _ => .setmod⟩,
  ⟨"GETMOD", 0x03000000#32, 0xFFFFFFFF#32, fun _ => .getmod⟩]

/-- Opcodes 0x10 to 0x1F, Hamming part (R44). -/
def hammingRows : List Row := [
  ⟨"HLDH", 0x10000000#32, 0xFFFFFFFF#32, fun _ => .hldh⟩,
  ⟨"HLDC", 0x11000000#32, 0xFFFFFFFF#32, fun _ => .hldc⟩,
  ⟨"HLDR", 0x12000000#32, 0xFFFFFFFF#32, fun _ => .hldr⟩,
  ⟨"HLDV", 0x13000000#32, 0xFFFFFFFF#32, fun _ => .hldv⟩,
  ⟨"HLDU", 0x14000000#32, 0xFFFFFFFF#32, fun _ => .hldu⟩,
  ⟨"HRD", 0x15000000#32, 0xFFFFF0FF#32, fun f => .hrd f.i⟩,
  ⟨"HFLIP", 0x16000000#32, 0xFFFFFF0F#32, fun f => .hflip f.j⟩,
  ⟨"HENC", 0x18000000#32, 0xFFFFFFFF#32, fun _ => .henc⟩,
  ⟨"HSYN", 0x19000000#32, 0xFFFFFFFF#32, fun _ => .hsyn⟩,
  ⟨"HLOC", 0x1A000000#32, 0xFFFFFFFF#32, fun _ => .hloc⟩,
  ⟨"HCOR", 0x1B000000#32, 0xFFFFFFFF#32, fun _ => .hcor⟩,
  ⟨"HPRJ", 0x1C000000#32, 0xFFFFFFFF#32, fun _ => .hprj⟩]

/-- Opcodes 0x20 to 0x2F, matrix engine (R44). -/
def matrixRows : List Row := [
  ⟨"MSHAPE", 0x20000000#32, 0xFF0FF00F#32, fun f => .mshape f.rd f.i f.j⟩,
  ⟨"MST", 0x21000000#32, 0xFF0FF00F#32, fun f => .mst f.rd f.i f.j⟩,
  ⟨"MLD", 0x22000000#32, 0xFFF0F00F#32, fun f => .mld f.ra f.i f.j⟩,
  ⟨"MDIM", 0x23000000#32, 0xFFF0FFFF#32, fun f => .mdim f.ra⟩,
  ⟨"MMUL", 0x24000000#32, 0xFF000FFF#32, fun f => .mmul f.rd f.ra f.rb⟩,
  ⟨"MRED", 0x25000000#32, 0xFF00FFFF#32, fun f => .mred f.rd f.ra⟩,
  ⟨"MTRN", 0x26000000#32, 0xFF00FFFF#32, fun f => .mtrn f.rd f.ra⟩,
  ⟨"MDET", 0x27000000#32, 0xFFF0FFFF#32, fun f => .mdet f.ra⟩,
  ⟨"MINV", 0x28000000#32, 0xFF00FFFF#32, fun f => .minv f.rd f.ra⟩,
  ⟨"MCHK", 0x29000000#32, 0xFFF0FFFF#32, fun f => .mchk f.ra⟩,
  ⟨"MZT", 0x2A000000#32, 0xFFF0FFFF#32, fun f => .mzt f.ra⟩]

/-- The opcode map, 27 rows (R44). -/
def opcodeTable : List Row := systemRows ++ hammingRows ++ matrixRows

/-- `(w[31:0] AND mask) = match` (R43). -/
def Row.accepts (r : Row) (c : BitVec 32) : Bool := c &&& r.mask == r.pattern

/-- The row of the map that a 32-bit word matches, if any (R43). -/
def findRow (c : BitVec 32) : Option Row := opcodeTable.find? (fun r => r.accepts c)

/-- Some row of the map has the word's opcode byte. -/
def opcodeDefined (c : BitVec 32) : Bool :=
  opcodeTable.any (fun r => r.pattern.extractLsb' 24 8 == c.extractLsb' 24 8)

/-- The command a 64-bit value written to CMD stands for, or why it is illegal (R43, R47). -/
def decode (w : Word) : Except DecodeError Instr :=
  if w.extractLsb' 32 32 ≠ 0#32 then .error .highBits
  else
    match findRow (w.extractLsb' 0 32) with
    | some r => .ok (r.build (fieldsOf (w.extractLsb' 0 32)))
    | none => .error (if opcodeDefined (w.extractLsb' 0 32) then .strayBits else .reservedOpcode)

/-- The 64-bit CMD value with the given opcode and fields: bits 63:32 and `z` are 0 (R42, R50). DESIGN CHOICE:
an operand of 16 or more, which no 4-bit field carries and of which the spec says nothing, is taken modulo 16
(log entry 16). -/
def command (op : BitVec 8) (rd ra rb i j : Nat) : Word :=
  0#32 ++ (op ++ BitVec.ofNat 4 rd ++ BitVec.ofNat 4 ra ++ BitVec.ofNat 4 rb
    ++ BitVec.ofNat 4 i ++ BitVec.ofNat 4 j ++ 0#4)

/-- The value a host writes to CMD for a command (R42, R44, R50); for a term that is not well formed it is the
model's choice (log entry 16). -/
def encode : Instr → Word
  | .nop => command 0x00#8 0 0 0 0 0
  | .clrf => command 0x01#8 0 0 0 0 0
  | .setmod => command 0x02#8 0 0 0 0 0
  | .getmod => command 0x03#8 0 0 0 0 0
  | .hldh => command 0x10#8 0 0 0 0 0
  | .hldc => command 0x11#8 0 0 0 0 0
  | .hldr => command 0x12#8 0 0 0 0 0
  | .hldv => command 0x13#8 0 0 0 0 0
  | .hldu => command 0x14#8 0 0 0 0 0
  | .hrd i => command 0x15#8 0 0 0 i 0
  | .hflip j => command 0x16#8 0 0 0 0 j
  | .henc => command 0x18#8 0 0 0 0 0
  | .hsyn => command 0x19#8 0 0 0 0 0
  | .hloc => command 0x1A#8 0 0 0 0 0
  | .hcor => command 0x1B#8 0 0 0 0 0
  | .hprj => command 0x1C#8 0 0 0 0 0
  | .mshape rd i j => command 0x20#8 rd 0 0 i j
  | .mst rd i j => command 0x21#8 rd 0 0 i j
  | .mld ra i j => command 0x22#8 0 ra 0 i j
  | .mdim ra => command 0x23#8 0 ra 0 0 0
  | .mmul rd ra rb => command 0x24#8 rd ra rb 0 0
  | .mred rd ra => command 0x25#8 rd ra 0 0 0
  | .mtrn rd ra => command 0x26#8 rd ra 0 0 0
  | .mdet ra => command 0x27#8 0 ra 0 0 0
  | .minv rd ra => command 0x28#8 rd ra 0 0 0
  | .mchk ra => command 0x29#8 0 ra 0 0 0
  | .mzt ra => command 0x2A#8 0 ra 0 0 0

/-- The command the decoder reads from an opcode-table word: the command word is the low 32 bits of the
value written to CMD, the bits above `nbits` are 0 (R42). -/
def decodeTableWord (nbits w : Nat) : Option Instr :=
  (decode (BitVec.ofNat 64 (w % 2 ^ nbits))).toOption

end Sys2Proof
end

