-- ==== Sys2Proof/Machine/State.lean ====
section
/-! DEFINITION. The state of the unit (spec rule R10), the host's accesses still to be served and the
values its reads have returned (R8, R38, R124), the spec's fault causes (R98), and the two ways a step of
this model could stop. -/

namespace Sys2Proof.Machine

/-- A matrix: its shape and its entries, row by row (R12). Entries are 64-bit two's complement (R13). -/
structure Mat where
  rows : Nat
  cols : Nat
  e : List (List Word)
  deriving DecidableEq, Repr

/-- `rows` rows of `cols` entries each: nothing is stored outside the shape (R12). -/
abbrev Mat.full (A : Mat) : Prop := A.e.length = A.rows ∧ ∀ row ∈ A.e, row.length = A.cols

/-- What a valid matrix register holds: a shape within `1..DMAX` and exactly its entries (R12). -/
abbrev Mat.wf (A : Mat) : Prop :=
  1 ≤ A.rows ∧ A.rows ≤ Config.dmax ∧ 1 ≤ A.cols ∧ A.cols ≤ Config.dmax ∧ A.full

/-- The registers of the host's window (R31). -/
inductive WindowReg where
  | cmd
  | din
  | dout
  | status
  | fcmd
  | finfo
  deriving DecidableEq, Repr

/-- An action of the host (R8): `Reset` (R113), or an access of `width` bytes at the byte offset `off`
from `BASE` (R31 to R34). An address below `BASE` has a negative offset. -/
inductive HostAccess where
  | reset
  | read (off : Int) (width : Nat)
  | write (off : Int) (width : Nat) (v : Word)
  deriving DecidableEq, Repr

/-- The fault causes of R98. Taking one is a next state of the machine (R102, R103). -/
inductive Cause where
  | illegalCommand
  | badRegister
  | unwritten
  | indexRange
  | operandRange
  | dimensionMismatch
  | singularMatrix
  | arithOverflow
  deriving DecidableEq, Repr

/-- Reasons for which the machine would stop dead. There is none: every fault of the spec is recorded in
the fault registers and the unit goes on answering its host (R102 to R104). -/
inductive Fault where
  deriving DecidableEq, Repr

/-- Host accesses to which the spec gives no behaviour, so that "a model refuses it" (R34, R37), and the
rejection of an instruction that has no meaning yet. All are safe: the model stops. -/
inductive Refusal where
  /-- raised by `exec` for an instruction without a meaning; no arm raises it; safe -/
  | notModelled (mnemonic : String)
  /-- raised by `checkAccess` for an access narrower or wider than 64 bits (R34, I2); safe -/
  | accessWidth
  /-- raised by `checkAccess` for an address that is not a multiple of 8 (R34, I2); safe -/
  | accessAlignment
  /-- raised by `checkAccess` for the reserved offsets 0x30 and 0x38 and any address outside the window
  (R37, I1); safe -/
  | outsideWindow
  deriving DecidableEq, Repr

/-- The whole state. A register with a valid bit is an `Option`: `none` is valid bit 0, behind which the
spec puts no value ("a model should hold no value there (an option type)", R20, R27); `some v` is valid
bit 1 and content `v` (log entry 3). -/
structure State where
  /-- `M[0]` to `M[7]` (R12) -/
  mregs : Vector (Option Mat) Config.nmreg
  /-- `MOD`, `MODV` (R14) -/
  modReg : Option Word
  /-- `DIN` (R15) -/
  din : Word
  /-- `DOUT` (R16) -/
  dout : Word
  /-- `H`, `HV` (R17) -/
  hReg : Option (BitVec 21)
  /-- `C`, `CV` (R17) -/
  cReg : Option (BitVec 28)
  /-- `R`, `RV` (R17) -/
  rReg : Option (BitVec 28)
  /-- `V`, `VV` (R18) -/
  vReg : Option (BitVec 4)
  /-- `U`, `UV` (R18) -/
  uReg : Option (BitVec 7)
  /-- `S`, `SV` (R19, R21) -/
  sReg : Option (BitVec 3)
  /-- `LOC`, `LV`: bit 3 is ERR, bits 2:0 are IDX (R19, R21) -/
  locReg : Option (BitVec 4)
  /-- `FAULT` (R23) -/
  fault : Bool
  /-- `FCODE` (R23) -/
  fcode : BitVec 8
  /-- `FCMD` (R24) -/
  fcmd : Word
  /-- `FINFO` (R24) -/
  finfo : Word
  /-- The model's own: the host's accesses still to be served, in the order the host issues them (R38).
  Log entry 1. -/
  accesses : List HostAccess
  /-- The model's own: the values the host's reads have returned, oldest first (R124). Log entry 1. -/
  reads : List Word
  deriving DecidableEq, Repr

/-- The state after `Reset` (R26, R114): every valid bit 0, every other register 0. No host access is
waiting and none has been served (log entry 1). -/
def State.reset : State where
  mregs := Vector.replicate Config.nmreg none
  modReg := none
  din := 0#64
  dout := 0#64
  hReg := none
  cReg := none
  rReg := none
  vReg := none
  uReg := none
  sReg := none
  locReg := none
  fault := false
  fcode := 0#8
  fcmd := 0#64
  finfo := 0#64
  accesses := []
  reads := []

end Sys2Proof.Machine
end

