-- ==== Sys2Proof/Machine/Ops.lean ====
section
/-! DEFINITION. The named operations over the state: reading and writing registers, taking a fault, the
return from it, and the one way every command ends (spec rules R53, R102 to R106). Every register is
written here and nowhere else. -/

namespace Sys2Proof.Machine

/-- How every meaning answers. -/
abbrev Result := Host.Outcome State Fault Refusal

/-- What a command records when it faults: the cause and the value for FINFO (R98, R103). -/
structure Raised where
  cause : Cause
  info : Word
  deriving DecidableEq, Repr

/-- The code of a cause (R98). -/
def causeCode : Cause → BitVec 8
  | .illegalCommand => 1#8
  | .badRegister => 2#8
  | .unwritten => 3#8
  | .indexRange => 4#8
  | .operandRange => 5#8
  | .dimensionMismatch => 6#8
  | .singularMatrix => 7#8
  | .arithOverflow => 8#8

/-- Fault entry: `raise F(info)` while the host writes `w` to CMD (R103). Nothing else changes (R102). -/
def takeFault (f : Raised) (w : Word) (s : State) : State :=
  { s with fault := true, fcode := causeCode f.cause, fcmd := w, finfo := f.info }

/-- The return from a fault: the effect of CLRF (R55, R105). -/
def clearFault (s : State) : State :=
  { s with fault := false, fcode := 0#8, fcmd := 0#64, finfo := 0#64 }

/-- The end of a command whose CMD value is `w` (R53): it either completes with all its writes, or raises
one fault and the state is the one before the command but for the fault registers. -/
def conclude (w : Word) (s : State) (r : Except Raised State) : Result :=
  match r with
  | .ok t => .next t
  | .error f => .next (takeFault f w s)

/-- A fault condition of a command's rule: unless `c` holds, raise `f` with the extra value `info`. -/
def require (c : Prop) [Decidable c] (f : Cause) (info : Word := 0#64) : Except Raised Unit :=
  if c then .ok () else .error ⟨f, info⟩

/-- Read a register that has a valid bit: Unwritten if it is 0 (R20, R98). -/
def written {α : Type} (r : Option α) : Except Raised α :=
  match r with
  | some v => .ok v
  | none => .error ⟨.unwritten, 0#64⟩

/-- The matrix register `M[k]`, `none` when its valid bit is 0 (R12). -/
def matrixReg (k : Nat) (s : State) : Option Mat := (s.mregs[k]?).getD none

/-- `M[k] <- A`; the valid bit becomes 1 (R7, R12). -/
def writeMatrix (k : Nat) (A : Mat) (s : State) : State :=
  { s with mregs := s.mregs.setIfInBounds k (some A) }

/-- `MOD <- n ; MODV <- 1` (R14, R56). -/
def writeMod (n : Word) (s : State) : State := { s with modReg := some n }

/-- `DIN <- v` (R15). -/
def writeDin (v : Word) (s : State) : State := { s with din := v }

/-- `DOUT <- v` (R16). -/
def writeDout (v : Word) (s : State) : State := { s with dout := v }

/-- `H <- x ; HV <- 1 ; SV <- 0 ; LV <- 0` (R21, R58). -/
def writeH (x : BitVec 21) (s : State) : State :=
  { s with hReg := some x, sReg := none, locReg := none }

/-- `C <- x ; CV <- 1` (R59). -/
def writeC (x : BitVec 28) (s : State) : State := { s with cReg := some x }

/-- `R <- x ; RV <- 1` (R60). -/
def writeR (x : BitVec 28) (s : State) : State := { s with rReg := some x }

/-- `V <- x ; VV <- 1` (R61, R69). -/
def writeV (x : BitVec 4) (s : State) : State := { s with vReg := some x }

/-- `U <- x ; UV <- 1 ; SV <- 0 ; LV <- 0` (R21). -/
def writeU (x : BitVec 7) (s : State) : State :=
  { s with uReg := some x, sReg := none, locReg := none }

/-- `S <- x ; SV <- 1 ; LV <- 0` (R21, R66). -/
def writeS (x : BitVec 3) (s : State) : State := { s with sReg := some x, locReg := none }

/-- `LOC <- x ; LV <- 1` (R21, R67). -/
def writeLoc (x : BitVec 4) (s : State) : State := { s with locReg := some x }

/-- The host is given the value of a read (R32, R124). -/
def returnRead (v : Word) (s : State) : State := { s with reads := s.reads ++ [v] }

/-- Every register at its reset value (R114); the host's side of the state is not the unit's and stays
(log entry 11). -/
def resetUnit (s : State) : State :=
  { State.reset with accesses := s.accesses, reads := s.reads }

end Sys2Proof.Machine
end

