-- ==== Sys2Proof/Machine/Operands.lean ====
section
/-! DEFINITION. The operand forms of the commands: 64-bit values as integers (spec rule R6), vectors of bits
(R5), register fields, indices and counts (R45), operands taken from DIN (R46), and the modulus. -/

namespace Sys2Proof.Machine

/-- `sext_64`: a register value as a two's-complement integer (R6). -/
def sext64 (v : Word) : Int := v.toInt

/-- `zext_64`: a register value as an unsigned integer (R6). -/
def zext64 (v : Word) : Int := (v.toNat : Int)

/-- `trunc_64`: the 64-bit pattern of an integer (R6). -/
def trunc64 (x : Int) : Word := BitVec.ofInt 64 x

/-- The integer is in `[-2^63, 2^63 - 1]` (R13, R91). -/
def fits64 (x : Int) : Bool := decide (-9223372036854775808 ≤ x ∧ x ≤ 9223372036854775807)

/-- The vector of `n` bits whose element `k` is `f k` (R5). -/
def bitVector : (n : Nat) → (Nat → Bool) → BitVec n
  | 0, _ => 0#0
  | n + 1, f => BitVec.cons (f n) (bitVector n f)

/-- `BadReg(f, ...)`: every listed register field names one of the matrix registers (R45). -/
def goodRegs (fields : List Nat) : Except Raised Unit :=
  require (∀ k ∈ fields, k < Config.nmreg) .badRegister

/-- The source matrix register that a field names; `Unw(k)` (R45, R98). -/
def sourceMatrix (k : Nat) (s : State) : Except Raised Mat := written (matrixReg k s)

/-- `N`, the modulus as an integer; `UnwMod` (R14). -/
def modulus (s : State) : Except Raised Int := do
  let n ← written s.modReg
  return zext64 n

/-- A packed Hamming value of `k` bits taken from DIN: the bits above must be 0, else OperandRange (R46). -/
def packedDin (k : Nat) (s : State) : Except Raised (BitVec k) := do
  require (s.din >>> k = 0#64) .operandRange
  return s.din.setWidth k

end Sys2Proof.Machine
end

