-- ==== Sys2Proof/Machine/Flags.lean ====
section
/-! DEFINITION. The status view. The unit has no condition flags (spec rule R25); its status bits are the
valid bits, FAULT and FCODE, which the host reads together in STATUS (R22). -/

namespace Sys2Proof.Machine

/-- Bit `b` of STATUS, row by row of the table of R22. -/
def statusBit (s : State) (b : Nat) : Bool :=
  if b = 0 then s.fault
  else if b = 1 then s.hReg.isSome
  else if b = 2 then s.cReg.isSome
  else if b = 3 then s.rReg.isSome
  else if b = 4 then s.vReg.isSome
  else if b = 5 then s.uReg.isSome
  else if b = 6 then s.sReg.isSome
  else if b = 7 then s.locReg.isSome
  else if b < 16 then s.fcode.getLsbD (b - 8)
  else if b < 24 then (matrixReg (b - 16) s).isSome
  else if b = 24 then s.modReg.isSome
  else false

/-- The STATUS register as the host reads it (R22). -/
def status (s : State) : Word := bitVector 64 (statusBit s)

end Sys2Proof.Machine
end

