-- ==== Sys2Proof/Machine/IntMatrix.lean ====
section
/-! DEFINITION. Integer matrices (spec rules R12, R81, R83 to R85): entries, product, determinant,
adjugate, modular inverse. All arithmetic is over the mathematical integers (R91). -/

namespace Sys2Proof.Machine

/-- The stored entry `e[a][b]` (log entry 12). -/
def entry (A : Mat) (a b : Nat) : Word := ((A.e[a]?).getD [])[b]?.getD 0#64

/-- The entry as the integer it stands for (R13). -/
def entryInt (A : Mat) (a b : Nat) : Int := sext64 (entry A a b)

/-- The `r` by `c` matrix with the entries `f a b` (R7). -/
def buildMatrix (r c : Nat) (f : Nat → Nat → Word) : Mat where
  rows := r
  cols := c
  e := (List.range r).map fun a => (List.range c).map fun b => f a b

/-- `f 0 + ... + f (n-1)` over the integers. -/
def sumTo : Nat → (Nat → Int) → Int
  | 0, _ => 0
  | n + 1, f => sumTo n f + f n

/-- The exact entry `P[a][b]` of the product (R81). -/
def productEntry (A B : Mat) (a b : Nat) : Int :=
  sumTo A.cols fun t => entryInt A a t * entryInt B t b

/-- Every entry of the `r` by `c` array satisfies the test. -/
def allEntries (r c : Nat) (p : Nat → Nat → Bool) : Bool :=
  (List.range r).all fun a => (List.range c).all fun b => p a b

/-- `+1` for an even exponent and `-1` for an odd one. -/
def altSign (n : Nat) : Int := if n % 2 = 0 then 1 else -1

/-- The index in the full array of index `i` of the array with row (or column) `r` removed. -/
def skipIndex (r i : Nat) : Nat := if i < r then i else i + 1

/-- The array with row `r` and column `c` removed (R84). -/
def removeRowCol (A : Nat → Nat → Int) (r c : Nat) : Nat → Nat → Int :=
  fun i k => A (skipIndex r i) (skipIndex c k)

/-- `det` of an `n` by `n` integer array (R83), by expansion along row 0: 1 for the 0 by 0 array (D30).
That this is R83's signed sum over all permutations is the obligation `DetIsThePermutationSum`. -/
def det : (n : Nat) → (Nat → Nat → Int) → Int
  | 0, _ => 1
  | n + 1, A => sumTo (n + 1) fun k => altSign k * A 0 k * det n (removeRowCol A 0 k)

/-- `adj(A)[a][b]` of an `n` by `n` integer array (R84): note the swap of `a` and `b`. -/
def adj (n : Nat) (A : Nat → Nat → Int) (a b : Nat) : Int :=
  altSign (a + b) * det (n - 1) (removeRowCol A b a)

/-- The extended Euclidean algorithm on the remainders `r0`, `r1` with the coefficients `t0`, `t1`; `fuel`
bounds the number of divisions. The answer is the coefficient of the last non-zero remainder. -/
def euclidCoeff : (fuel : Nat) → (r0 r1 t0 t1 : Int) → Int
  | 0, _, _, t0, _ => t0
  | fuel + 1, r0, r1, t0, t1 =>
    if r1 = 0 then t0 else euclidCoeff fuel r1 (r0 % r1) t1 (t0 - r0 / r1 * t1)

/-- `inv_mod(d, n)` (R85), by the extended Euclidean algorithm (log entry 9). -/
def invMod (d n : Int) : Int := euclidCoeff (d.toNat + 2) n d 0 1 % n

/-- `det(M.e) mod N` (R83, R87). -/
def detMod (A : Mat) (n : Int) : Int := det A.rows (entryInt A) % n

end Sys2Proof.Machine
end

