-- ==== Sys2Proof/Machine/Engine.lean ====
section
/-! DEFINITION. The matrix engine commands (spec rules R77 to R82, R86 to R90). Conditions are checked in
the order BadReg, then Unw and UnwMod, then the command's own in ascending fault code (R101); sources are
read in the state before the command (R92). -/

namespace Sys2Proof.Machine

/-- MSHAPE (R77). -/
def execMshape (rd i j : Nat) (s : State) : Result :=
  conclude (encode (.mshape rd i j)) s do
    goodRegs [rd]
    require (1 ≤ i ∧ i ≤ Config.dmax ∧ 1 ≤ j ∧ j ≤ Config.dmax) .indexRange
    return writeMatrix rd (buildMatrix i j fun _ _ => 0#64) s

/-- MST (R78). -/
def execMst (rd i j : Nat) (s : State) : Result :=
  conclude (encode (.mst rd i j)) s do
    goodRegs [rd]
    let A ← sourceMatrix rd s
    require (i < A.rows ∧ j < A.cols) .indexRange
    return writeMatrix rd
      (buildMatrix A.rows A.cols fun a b => if a = i ∧ b = j then s.din else entry A a b) s

/-- MLD (R79). -/
def execMld (ra i j : Nat) (s : State) : Result :=
  conclude (encode (.mld ra i j)) s do
    goodRegs [ra]
    let A ← sourceMatrix ra s
    require (i < A.rows ∧ j < A.cols) .indexRange
    return writeDout (trunc64 (entryInt A i j)) s

/-- MDIM (R80). -/
def execMdim (ra : Nat) (s : State) : Result :=
  conclude (encode (.mdim ra)) s do
    goodRegs [ra]
    let A ← sourceMatrix ra s
    return writeDout (trunc64 (A.rows * 16 + A.cols)) s

/-- MMUL (R81). -/
def execMmul (rd ra rb : Nat) (s : State) : Result :=
  conclude (encode (.mmul rd ra rb)) s do
    goodRegs [rd, ra, rb]
    let A ← sourceMatrix ra s
    let B ← sourceMatrix rb s
    require (A.cols = B.rows) .dimensionMismatch
    require (allEntries A.rows B.cols (fun a b => fits64 (productEntry A B a b)) = true) .arithOverflow
    return writeMatrix rd (buildMatrix A.rows B.cols fun a b => trunc64 (productEntry A B a b)) s

/-- MRED (R82). -/
def execMred (rd ra : Nat) (s : State) : Result :=
  conclude (encode (.mred rd ra)) s do
    goodRegs [rd, ra]
    let A ← sourceMatrix ra s
    let n ← modulus s
    return writeMatrix rd (buildMatrix A.rows A.cols fun a b => trunc64 (entryInt A a b % n)) s

/-- MTRN (R86). -/
def execMtrn (rd ra : Nat) (s : State) : Result :=
  conclude (encode (.mtrn rd ra)) s do
    goodRegs [rd, ra]
    let A ← sourceMatrix ra s
    return writeMatrix rd (buildMatrix A.cols A.rows fun b a => entry A a b) s

/-- MDET (R87). -/
def execMdet (ra : Nat) (s : State) : Result :=
  conclude (encode (.mdet ra)) s do
    goodRegs [ra]
    let A ← sourceMatrix ra s
    let n ← modulus s
    require (A.rows = A.cols) .dimensionMismatch
    return writeDout (trunc64 (detMod A n)) s

/-- MINV (R88). -/
def execMinv (rd ra : Nat) (s : State) : Result :=
  conclude (encode (.minv rd ra)) s do
    goodRegs [rd, ra]
    let A ← sourceMatrix ra s
    let n ← modulus s
    require (A.rows = A.cols) .dimensionMismatch
    require (Int.gcd (detMod A n) n = 1) .singularMatrix (trunc64 (detMod A n))
    return writeMatrix rd
      (buildMatrix A.rows A.rows fun a b =>
        trunc64 (adj A.rows (entryInt A) a b * invMod (detMod A n) n % n)) s

/-- MCHK (R89). -/
def execMchk (ra : Nat) (s : State) : Result :=
  conclude (encode (.mchk ra)) s do
    goodRegs [ra]
    let A ← sourceMatrix ra s
    let n ← modulus s
    require (A.rows = A.cols) .dimensionMismatch
    require (Int.gcd (detMod A n) n = 1) .singularMatrix (trunc64 (detMod A n))
    return writeDout (trunc64 (detMod A n)) s

/-- MZT (R90). -/
def execMzt (ra : Nat) (s : State) : Result :=
  conclude (encode (.mzt ra)) s do
    goodRegs [ra]
    let A ← sourceMatrix ra s
    return writeDout (if allEntries A.rows A.cols (fun a b => entryInt A a b == 0) then 1#64 else 0#64) s

end Sys2Proof.Machine
end

