-- ==== Sys2Proof/Machine/Gf2.lean ====
section
/-! DEFINITION. Arithmetic over GF(2) (spec rules R5, R9): vectors with element `k` in bit `k`, matrices of
seven columns with element `[r][k]` in bit `7r + k`; and the Hamming stage functions of R64 to R69. -/

namespace Sys2Proof.Machine

/-- `(f 0 + ... + f (n-1)) mod 2` (R9). -/
def gfSum : Nat → (Nat → Bool) → Bool
  | 0, _ => false
  | n + 1, f => (gfSum n f).xor (f n)

/-- Element `[r][k]` of a matrix with seven columns (R5, R17). -/
def element {n : Nat} (A : BitVec n) (r k : Nat) : Bool := A.getLsbD (7 * r + k)

/-- `u = (C^T · v) mod 2` (R65). -/
def encodeBlock (C : BitVec 28) (v : BitVec 4) : BitVec 7 :=
  bitVector 7 fun k => gfSum 4 fun r => element C r k && v.getLsbD r

/-- `s = (H · u) mod 2` (R66). -/
def syndrome (H : BitVec 21) (u : BitVec 7) : BitVec 3 :=
  bitVector 3 fun r => gfSum 7 fun k => element H r k && u.getLsbD k

/-- `v = (R · u) mod 2` (R69). -/
def decodeBlock (R : BitVec 28) (u : BitVec 7) : BitVec 4 :=
  bitVector 4 fun r => gfSum 7 fun k => element R r k && u.getLsbD k

/-- `b = 4*S[2] + 2*S[1] + 1*S[0]`: the syndrome bits read in reverse order (R67, D21). -/
def syndromeNumber (x : BitVec 3) : Nat :=
  4 * (x.getLsbD 2).toNat + 2 * (x.getLsbD 1).toNat + (x.getLsbD 0).toNat

/-- The locator's answer: 0 for no error, else `8 + (b - 1)` (R67). -/
def locate (x : BitVec 3) : BitVec 4 :=
  if x = 0#3 then 0#4 else BitVec.ofNat 4 (8 + (syndromeNumber x - 1))

/-- LOC.ERR (R19). -/
def locErr (l : BitVec 4) : Bool := l.getLsbD 3

/-- LOC.IDX (R19). -/
def locIdx (l : BitVec 4) : Nat := (l.extractLsb' 0 3).toNat

/-- `u` with bit `p` complemented (R9, R64). -/
def flipBit (p : Nat) (u : BitVec 7) : BitVec 7 :=
  bitVector 7 fun k => if k = p then !u.getLsbD k else u.getLsbD k

end Sys2Proof.Machine
end

