-- ==== Sys2Proof/Machine/Hamming.lean ====
section
/-! DEFINITION. The Hamming commands (spec rules R58 to R69). -/

namespace Sys2Proof.Machine

/-- HLDH (R58). -/
def execHldh (s : State) : Result :=
  conclude (encode .hldh) s do
    let x ← packedDin 21 s
    return writeH x s

/-- HLDC (R59). -/
def execHldc (s : State) : Result :=
  conclude (encode .hldc) s do
    let x ← packedDin 28 s
    return writeC x s

/-- HLDR (R60). -/
def execHldr (s : State) : Result :=
  conclude (encode .hldr) s do
    let x ← packedDin 28 s
    return writeR x s

/-- HLDV (R61). -/
def execHldv (s : State) : Result :=
  conclude (encode .hldv) s do
    let x ← packedDin 4 s
    return writeV x s

/-- HLDU (R62). -/
def execHldu (s : State) : Result :=
  conclude (encode .hldu) s do
    let x ← packedDin 7 s
    return writeU x s

/-- The Hamming register that HRD's selector names, zero-extended to 64 bits; `none` when its valid bit
is 0 (R63). -/
def selectedHamming (i : Nat) (s : State) : Option Word :=
  match i with
  | 0 => s.hReg.map (·.setWidth 64)
  | 1 => s.cReg.map (·.setWidth 64)
  | 2 => s.rReg.map (·.setWidth 64)
  | 3 => s.vReg.map (·.setWidth 64)
  | 4 => s.uReg.map (·.setWidth 64)
  | 5 => s.sReg.map (·.setWidth 64)
  | 6 => s.locReg.map (·.setWidth 64)
  | _ => none

/-- HRD (R63). -/
def execHrd (i : Nat) (s : State) : Result :=
  conclude (encode (.hrd i)) s do
    require (i ≤ 6) .indexRange
    let x ← written (selectedHamming i s)
    return writeDout x s

/-- HFLIP (R64). -/
def execHflip (j : Nat) (s : State) : Result :=
  conclude (encode (.hflip j)) s do
    let u ← written s.uReg
    require (j ≤ 6) .indexRange
    return writeU (flipBit j u) s

/-- HENC (R65). -/
def execHenc (s : State) : Result :=
  conclude (encode .henc) s do
    let C ← written s.cReg
    let v ← written s.vReg
    return writeU (encodeBlock C v) s

/-- HSYN (R66). -/
def execHsyn (s : State) : Result :=
  conclude (encode .hsyn) s do
    let H ← written s.hReg
    let u ← written s.uReg
    return writeS (syndrome H u) s

/-- HLOC (R67). -/
def execHloc (s : State) : Result :=
  conclude (encode .hloc) s do
    let x ← written s.sReg
    return writeLoc (locate x) s

/-- HCOR (R68). `LV = 1` implies `UV = 1` in every state of a run (R21); in a state where it does not,
reading U is the fault Unwritten of R20 (log entry 5). -/
def execHcor (s : State) : Result :=
  conclude (encode .hcor) s do
    let l ← written s.locReg
    if locErr l then
      let u ← written s.uReg
      return writeU (flipBit (locIdx l) u) s
    else
      return s

/-- HPRJ (R69). -/
def execHprj (s : State) : Result :=
  conclude (encode .hprj) s do
    let R ← written s.rReg
    let u ← written s.uReg
    return writeV (decodeBlock R u) s

end Sys2Proof.Machine
end

