-- ==== Sys2Proof/Machine/System.lean ====
section
/-! DEFINITION. The system commands NOP, CLRF, SETMOD, GETMOD (spec rules R54 to R57). -/

namespace Sys2Proof.Machine

/-- NOP (R54). -/
def execNop (s : State) : Result := .next s

/-- CLRF (R55). -/
def execClrf (s : State) : Result := .next (clearFault s)

/-- SETMOD (R56). -/
def execSetmod (s : State) : Result :=
  conclude (encode .setmod) s do
    require (2 ≤ sext64 s.din) .operandRange
    return writeMod s.din s

/-- GETMOD (R57). -/
def execGetmod (s : State) : Result :=
  conclude (encode .getmod) s do
    let n ← written s.modReg
    return writeDout n s

end Sys2Proof.Machine
end

