-- ==== Sys2Proof/Machine/Dispatch.lean ====
section
/-! DEFINITION. One arm per command: the command's own effect, in a state with FAULT = 0 (spec rule R53; the
gate of the faulted state stands in Access.lean, `executeCommand`; log entry 8). -/

namespace Sys2Proof.Machine

def exec (i : Instr) (s : State) : Host.Outcome State Fault Refusal :=
  match i with
  | .nop => Sys2Proof.Machine.execNop s
  | .clrf => Sys2Proof.Machine.execClrf s
  | .setmod => Sys2Proof.Machine.execSetmod s
  | .getmod => Sys2Proof.Machine.execGetmod s
  | .hldh => Sys2Proof.Machine.execHldh s
  | .hldc => Sys2Proof.Machine.execHldc s
  | .hldr => Sys2Proof.Machine.execHldr s
  | .hldv => Sys2Proof.Machine.execHldv s
  | .hldu => Sys2Proof.Machine.execHldu s
  | .hrd sel => Sys2Proof.Machine.execHrd sel s
  | .hflip pos => Sys2Proof.Machine.execHflip pos s
  | .henc => Sys2Proof.Machine.execHenc s
  | .hsyn => Sys2Proof.Machine.execHsyn s
  | .hloc => Sys2Proof.Machine.execHloc s
  | .hcor => Sys2Proof.Machine.execHcor s
  | .hprj => Sys2Proof.Machine.execHprj s
  | .mshape rd rows cols => Sys2Proof.Machine.execMshape rd rows cols s
  | .mst rd row col => Sys2Proof.Machine.execMst rd row col s
  | .mld ra row col => Sys2Proof.Machine.execMld ra row col s
  | .mdim ra => Sys2Proof.Machine.execMdim ra s
  | .mmul rd ra rb => Sys2Proof.Machine.execMmul rd ra rb s
  | .mred rd ra => Sys2Proof.Machine.execMred rd ra s
  | .mtrn rd ra => Sys2Proof.Machine.execMtrn rd ra s
  | .mdet ra => Sys2Proof.Machine.execMdet ra s
  | .minv rd ra => Sys2Proof.Machine.execMinv rd ra s
  | .mchk ra => Sys2Proof.Machine.execMchk ra s
  | .mzt ra => Sys2Proof.Machine.execMzt ra s

end Sys2Proof.Machine
end

