-- ==== Sys2Proof/Machine/Access.lean ====
section
/-! DEFINITION. The host's accesses (spec rules R30 to R41, R53, R104, R113, R114): the register window,
the execution of a command by a write to CMD, and the service of the next access. -/

namespace Sys2Proof.Machine

/-- The register at an offset from `BASE` (R31). -/
def windowReg (off : Int) : Option WindowReg :=
  if off = 0x00 then some .cmd
  else if off = 0x08 then some .din
  else if off = 0x10 then some .dout
  else if off = 0x18 then some .status
  else if off = 0x20 then some .fcmd
  else if off = 0x28 then some .finfo
  else none

/-- The offset of a register (R31). -/
def windowOffset : WindowReg → Int
  | .cmd => 0x00
  | .din => 0x08
  | .dout => 0x10
  | .status => 0x18
  | .fcmd => 0x20
  | .finfo => 0x28

/-- The register an access reaches. The accesses the spec defines are 64 bits wide, aligned, and to one of
the six registers (R34, R37; log entry 7). -/
def checkAccess (off : Int) (width : Nat) : Except Refusal WindowReg :=
  if width ≠ 8 then .error .accessWidth
  else if off % 8 ≠ 0 then .error .accessAlignment
  else
    match windowReg off with
    | some r => .ok r
    | none => .error .outsideWindow

/-- The value a host read of a register returns (R31, R32). -/
def windowValue (r : WindowReg) (s : State) : Word :=
  match r with
  | .cmd => 0#64
  | .din => s.din
  | .dout => s.dout
  | .status => status s
  | .fcmd => s.fcmd
  | .finfo => s.finfo

/-- `Execute(w)` (R53). While FAULT = 1 every value but that of CLRF is dropped (R104). -/
def executeCommand (w : Word) (s : State) : Result :=
  if s.fault then
    if w = 0x0000000001000000#64 then exec .clrf s else .next s
  else
    match decode w with
    | .ok i => exec i s
    | .error _ => .next (takeFault ⟨.illegalCommand, 0#64⟩ w s)

/-- `HostRead(off)` (R32): the value goes to the host and no register changes. -/
def hostRead (off : Int) (width : Nat) (s : State) : Result :=
  match checkAccess off width with
  | .ok r => .next (returnRead (windowValue r s) s)
  | .error e => .refused e

/-- `HostWrite(off, v)` (R33). -/
def hostWrite (off : Int) (width : Nat) (v : Word) (s : State) : Result :=
  match checkAccess off width with
  | .ok .cmd => executeCommand v s
  | .ok .din => .next (writeDin v s)
  | .ok .dout => .next s
  | .ok .status => .next s
  | .ok .fcmd => .next s
  | .ok .finfo => .next s
  | .error e => .refused e

/-- One action of the host, served whole (R8, R36). -/
def serve (a : HostAccess) (s : State) : Result :=
  match a with
  | .reset => .next (resetUnit s)
  | .read off width => hostRead off width s
  | .write off width v => hostWrite off width v s

/-- The unit serves the host's accesses one at a time in the order they are issued (R38); while there is
none it waits and nothing changes (R107, R110, R114). -/
def serveNext (s : State) : Result :=
  match s.accesses with
  | [] => .next s
  | a :: rest => serve a { s with accesses := rest }

/-- The state with a host write of `v` to CMD as the next access (R33). -/
def issueCommand (v : Word) (s : State) : State :=
  { s with accesses := .write (windowOffset .cmd) 8 v :: s.accesses }

/-- Byte `k` of a register where a platform lays the window out in bytes: bits `8k+7 : 8k` (R35). -/
def registerByte (v : Word) (k : Nat) : Byte := v.extractLsb' (8 * k) 8

/-- The host byte address of byte `k` of a register (R30, R35). -/
def byteAddress (r : WindowReg) (k : Nat) : Int := Config.base + windowOffset r + k

/-- The offset from `BASE` of a host byte address (R30). -/
def offsetOf (addr : Int) : Int := addr - Config.base

end Sys2Proof.Machine
end

