-- ==== Sys2Proof/Machine/Step.lean ====
section
/-! DEFINITION. One step: the unit serves the host's next access (spec rules R8, R11, R38). There is no
program counter and nothing is fetched (R11, R40): the next command is the host's next write to CMD. -/

namespace Sys2Proof.Machine

/-- One step of the machine. -/
def step (s : State) : Host.Outcome State Fault Refusal := serveNext s

/-- The state in which the host's next access writes the given opcode-table word to CMD, so that the next
step executes it (log entry 2). -/
def State.withFetchWord (s : State) (nbits w : Nat) : State :=
  issueCommand (BitVec.ofNat 64 (w % 2 ^ nbits)) s

end Sys2Proof.Machine
end

