-- ==== Sys2Proof/Machine/Assembler.lean ====
section
/-! DEFINITION. The assembly notation (spec rules R50 to R52): statements as host accesses, the
pseudo-instructions as sequences of statements, and a command's written form. It adds nothing to the
machine: a program is a sequence of host accesses (R51). -/

namespace Sys2Proof.Machine

/-- The names that HRD's selector may be written as (R50). -/
inductive HammingName where
  | h
  | c
  | r
  | v
  | u
  | s
  | loc
  deriving DecidableEq, Repr

/-- The selector a name stands for (R50). -/
def HammingName.selector : HammingName → Nat
  | .h => 0
  | .c => 1
  | .r => 2
  | .v => 3
  | .u => 4
  | .s => 5
  | .loc => 6

/-- A line of a program (R50, R51). -/
inductive Statement where
  /-- a command -/
  | command (i : Instr)
  /-- `.word <value>`: a 32-bit value written to CMD as it stands (vector F4; log entry 14) -/
  | word (w : BitVec 32)
  /-- `.din <value>`; a value outside 64 bits is the model's choice, log entry 15 -/
  | din (v : Int)
  /-- `.read <REG>`; R51 lists DOUT, STATUS, FCMD, FINFO and DIN, and CMD is the model's choice, log
  entry 17 -/
  | read (r : WindowReg)
  /-- `.expect <REG> = <value>`: the value the rules give for a read; no access; CMD as for `.read`, log
  entry 17 -/
  | expect (r : WindowReg) (v : Int)
  deriving DecidableEq, Repr

/-- The host access a statement stands for (R51). A `.din` value in `[-2^63, 2^64 - 1]` is its 64-bit pattern;
DESIGN CHOICE: one outside, of which the spec says nothing, is taken modulo `2^64` (log entry 15).
DESIGN CHOICE: an operand of 16 or more is taken modulo 16 (log entry 16), and `.read CMD`, which R51 does not
list, is the read of offset 0x00 that R32 defines (log entry 17). -/
def Statement.access : Statement → Option HostAccess
  | .command i => some (.write (windowOffset .cmd) 8 (encode i))
  | .word w => some (.write (windowOffset .cmd) 8 (w.setWidth 64))
  | .din v => some (.write (windowOffset .din) 8 (trunc64 v))
  | .read r => some (.read (windowOffset r) 8)
  | .expect _ _ => none

/-- A program is a sequence of host accesses (R51). -/
def programAccesses (p : List Statement) : List HostAccess := p.filterMap Statement.access

/-- The pseudo-instructions (R52). -/
inductive Pseudo where
  | setmodi (n : Int)
  | hldhi (x : Int)
  | hldci (x : Int)
  | hldri (x : Int)
  | hldvi (x : Int)
  | hldui (x : Int)
  | msti (md i j : Nat) (x : Int)
  | mcopy (md ma : Nat)
  | hdecode
  | hillenc (md mk mv : Nat)
  | hilldec (md mk mc : Nat)
  deriving DecidableEq, Repr

/-- HILLDEC needs `Md` different from `Mc` (R52). -/
def Pseudo.legal : Pseudo → Bool
  | .hilldec md _ mc => md != mc
  | _ => true

/-- The expansion of a pseudo-instruction (R52). DESIGN CHOICE: HILLDEC with `Md` equal to `Mc`, which R52 shuts
out, expands like the others (log entry 18). -/
def Pseudo.expand : Pseudo → List Statement
  | .setmodi n => [.din n, .command .setmod]
  | .hldhi x => [.din x, .command .hldh]
  | .hldci x => [.din x, .command .hldc]
  | .hldri x => [.din x, .command .hldr]
  | .hldvi x => [.din x, .command .hldv]
  | .hldui x => [.din x, .command .hldu]
  | .msti md i j x => [.din x, .command (.mst md i j)]
  | .mcopy md ma => [.command (.mtrn md ma), .command (.mtrn md md)]
  | .hdecode => [.command .hsyn, .command .hloc, .command .hcor]
  | .hillenc md mk mv => [.command (.mmul md mk mv), .command (.mred md md)]
  | .hilldec md mk mc => [.command (.minv md mk), .command (.mmul md md mc), .command (.mred md md)]

/-- The state in which the host issues the statements, in order, before what it already has to issue. -/
def issueProgram (p : List Statement) (s : State) : State :=
  { s with accesses := programAccesses p ++ s.accesses }

end Sys2Proof.Machine
end

