-- ==== Sys2Proof/Safety.lean ====
section
/-! DEFINITION. The terms claims are stated in: the invariant of the unit, a command that faults, a run of
commands and of host accesses, and when a run went wrong (spec rules R21, R23, R53, R103, R124). -/

namespace Sys2Proof.Machine

/-- What holds in every state of a run from reset: the registers agree with each other and with the ranges
the spec gives them. -/
structure Inv (s : State) : Prop where
  /-- a valid matrix register holds a shape within 1..8 and exactly its entries (R12) -/
  matrices : ∀ k A, matrixReg k s = some A → A.wf
  /-- `2 <= N <= 2^63 - 1` (R14) -/
  modulusRange : ∀ n, s.modReg = some n → 2 ≤ sext64 n
  /-- `SV = 1` means `S = (H · U) mod 2` for the present H and U (R21) -/
  syndromeCurrent : ∀ x, s.sReg = some x →
    ∃ H u, s.hReg = some H ∧ s.uReg = some u ∧ x = syndrome H u
  /-- `LV = 1` means LOC is the locator's answer for the present S (R21) -/
  locationCurrent : ∀ l, s.locReg = some l → ∃ x, s.sReg = some x ∧ l = locate x
  /-- the fault registers are 0 when no fault is recorded (R23, R24) -/
  noFault : s.fault = false → s.fcode = 0#8 ∧ s.fcmd = 0#64 ∧ s.finfo = 0#64
  /-- a recorded fault has a code of R98, and FINFO is 0 but for SingularMatrix (R24, R98) -/
  recorded : s.fault = true →
    ∃ c, s.fcode = causeCode c ∧ (c ≠ Cause.singularMatrix → s.finfo = 0#64)

/-- Executing `i` in `s` is fault entry with this code and extra value, and nothing else (R102, R103). -/
abbrev Faults (i : Instr) (s : State) (code : BitVec 8) (info : Word) : Prop :=
  exec i s = .next { s with fault := true, fcode := code, fcmd := encode i, finfo := info }

/-- The faults a command may raise, IllegalCommand left out, which is a property of the value written and
not of a command (the matrix of R112). -/
def allowedCauses : Instr → List Cause
  | .nop => []
  | .clrf => []
  | .setmod => [.operandRange]
  | .getmod => [.unwritten]
  | .hldh => [.operandRange]
  | .hldc => [.operandRange]
  | .hldr => [.operandRange]
  | .hldv => [.operandRange]
  | .hldu => [.operandRange]
  | .hrd _ => [.unwritten, .indexRange]
  | .hflip _ => [.unwritten, .indexRange]
  | .henc => [.unwritten]
  | .hsyn => [.unwritten]
  | .hloc => [.unwritten]
  | .hcor => [.unwritten]
  | .hprj => [.unwritten]
  | .mshape _ _ _ => [.badRegister, .indexRange]
  | .mst _ _ _ => [.badRegister, .unwritten, .indexRange]
  | .mld _ _ _ => [.badRegister, .unwritten, .indexRange]
  | .mdim _ => [.badRegister, .unwritten]
  | .mmul _ _ _ => [.badRegister, .unwritten, .dimensionMismatch, .arithOverflow]
  | .mred _ _ => [.badRegister, .unwritten]
  | .mtrn _ _ => [.badRegister, .unwritten]
  | .mdet _ => [.badRegister, .unwritten, .dimensionMismatch]
  | .minv _ _ => [.badRegister, .unwritten, .dimensionMismatch, .singularMatrix]
  | .mchk _ => [.badRegister, .unwritten, .dimensionMismatch, .singularMatrix]
  | .mzt _ => [.badRegister, .unwritten]

/-- The matrix register a command writes, by the "written by" column of R10. -/
def destination : Instr → Option Nat
  | .mshape rd _ _ => some rd
  | .mst rd _ _ => some rd
  | .mmul rd _ _ => some rd
  | .mred rd _ => some rd
  | .mtrn rd _ => some rd
  | .minv rd _ => some rd
  | _ => none

/-- The commands that write DOUT, by the "written by" column of R10. -/
def writesDout : Instr → Bool
  | .getmod => true
  | .hrd _ => true
  | .mld _ _ _ => true
  | .mdim _ => true
  | .mdet _ => true
  | .mchk _ => true
  | .mzt _ => true
  | _ => false

/-- The commands that write U, by the "written by" column of R10. -/
def writesU : Instr → Bool
  | .hldu => true
  | .henc => true
  | .hflip _ => true
  | .hcor => true
  | _ => false

/-- HRD with selector `i` reads the register `r`: Unwritten when its valid bit is 0, else its value,
zero-extended, goes to DOUT and nothing else changes (R63). -/
def HrdReads {w : Nat} (i : Nat) (r : Option (BitVec w)) (s : State) : Prop :=
  (r = none → Faults (.hrd i) s 3#8 0#64) ∧
  ∀ x, r = some x → exec (.hrd i) s = .next { s with dout := BitVec.ofNat 64 x.toNat }

/-- A matrix register's entries as the square matrix of integers that the determinant is defined on. -/
def squareMatrix (A : Mat) : Matrix (Fin A.rows) (Fin A.rows) Int :=
  Matrix.of fun a b => entryInt A a b

/-- `(A · B^T) mod 2 = I` (`unit`) or `0`, for matrices of seven columns with `ra` and `rb` rows, the first
in `A` and the second in `B` (R71). -/
def gfProductIs {m n : Nat} (A : BitVec m) (B : BitVec n) (ra rb : Nat) (unit : Bool) : Prop :=
  ∀ r < ra, ∀ q < rb,
    (∑ k ∈ Finset.range 7, (element A r k).toNat * (element B q k).toNat) % 2
      = if unit && r == q then 1 else 0

/-- H*, the parity-check matrix the source's rules determine (R70). -/
def hStar : BitVec 21 := 0x1E3355#21

/-- The host writes the commands to CMD one after another (R38, R53). -/
def runCommands : List Instr → State → Result
  | [], s => .next s
  | i :: rest, s =>
    match executeCommand (encode i) s with
    | .next t => runCommands rest t
    | .fault r => .fault r
    | .refused r => .refused r

/-- `k` steps, stopping at the first that has no next state. -/
def runSteps : Nat → State → Result
  | 0, s => .next s
  | k + 1, s =>
    match step s with
    | .next t => runSteps k t
    | .fault r => .fault r
    | .refused r => .refused r

/-- A run: a finite sequence of host accesses starting from a stated state (R124). -/
def runAccesses (p : List HostAccess) (s : State) : Result :=
  runSteps p.length { s with accesses := p }

/-- A run went wrong if FAULT = 1 at its end (R124). -/
def wentWrong (s : State) : Bool := s.fault

end Sys2Proof.Machine
end

