-- ==== Sys2Proof/Certificates/Slice0/Obligations.lean ====
section
/-! DEFINITION. The statements for the provers. A statement about one command's rule says both where the
command completes and with what state, and where it faults; `Faults i s code info` is fault entry and nothing
else. `s.accesses = a :: rest` says that the host's next access is `a`, and `accesses := rest` that it has
been served: that list, and the values read, are the model's form of R8, R38 and R124 (log entry 1). A premise
`2 ≤ sext64 n` on the content of MOD is the invariant's `modulusRange` (rule R14), which `InvKeptByEveryStep`
shows for every run. -/

open Sys2Proof Sys2Proof.Machine

/-! ### Reset, the invariant -/

/-- R114, with the table of R26: what `Reset` leaves, from any state. -/
def Obligations.ResetPutsEveryRegisterAtItsValue : Prop :=
  ∀ (s : State) (rest : List HostAccess), s.accesses = .reset :: rest →
    ∃ t, step s = .next t ∧ (∀ k, matrixReg k t = none) ∧ t.modReg = none ∧ t.din = 0#64 ∧ t.dout = 0#64 ∧
      t.hReg = none ∧ t.cReg = none ∧ t.rReg = none ∧ t.vReg = none ∧ t.uReg = none ∧ t.sReg = none ∧
      t.locReg = none ∧ t.fault = false ∧ t.fcode = 0#8 ∧ t.fcmd = 0#64 ∧ t.finfo = 0#64 ∧
      status t = 0#64

/-- The invariant holds right after reset. -/
def Obligations.InvHoldsAtReset : Prop := Inv State.reset

/-- Every step keeps the invariant, from every state that has it: R12, R14, R21, R23, R24. -/
def Obligations.InvKeptByEveryStep : Prop :=
  ∀ s t : State, Inv s → step s = .next t → Inv t

/-! ### Encoding -/

/-- Decoding an encoded well-formed command gives it back, with every operand at every value. -/
def Obligations.DecodeOfEncode : Prop :=
  ∀ i : Instr, i.wellFormed = true → decode (encode i) = .ok i

/-- A legal value is the encoding of exactly the command it decodes to, which is well formed (R43). -/
def Obligations.EncodeOfDecode : Prop :=
  ∀ (w : Word) (i : Instr), decode w = .ok i → i.wellFormed = true ∧ encode i = w

/-- R43: which values are legal, that at most one row can match, that an illegal value raises
IllegalCommand, and which bits the operands of a legal one are. -/
def Obligations.LegalMeansExactlyOneRow : Prop :=
  ∀ w : Word,
    ((∃ i, decode w = .ok i) ↔
      (w.extractLsb' 32 32 = 0#32 ∧
        ∃! k : Nat, ∃ r, opcodeTable[k]? = some r ∧ w.extractLsb' 0 32 &&& r.mask = r.pattern)) ∧
    ((¬∃ i, decode w = .ok i) → ∀ s : State, s.fault = false →
      executeCommand w s = .next { s with fault := true, fcode := 1#8, fcmd := w, finfo := 0#64 }) ∧
    ∀ i, decode w = .ok i → ∃ r ∈ opcodeTable, w.extractLsb' 0 32 &&& r.mask = r.pattern ∧
      i = r.build {
        op := w.toNat / 2 ^ 24 % 256, rd := w.toNat / 2 ^ 20 % 16, ra := w.toNat / 2 ^ 16 % 16,
        rb := w.toNat / 2 ^ 12 % 16, i := w.toNat / 2 ^ 8 % 16, j := w.toNat / 2 ^ 4 % 16,
        z := w.toNat % 16 }

/-- A few command words of the spec's encoding table (96_derived_vectors.md section 4) and what they are. Of
the three illegal values (F1 and the example after E30) the spec says that they are no command; that the decoder
names the reasons strayBits, reservedOpcode and highBits is the model's choice (log entry 13). -/
def Obligations.WordsOfTheEncodingTable : Prop :=
  decode 0x00000000#64 = .ok .nop ∧ decode 0x02000000#64 = .ok .setmod ∧
  decode 0x15000600#64 = .ok (.hrd 6) ∧ decode 0x16000060#64 = .ok (.hflip 6) ∧
  decode 0x20000370#64 = .ok (.mshape 0 3 7) ∧ decode 0x22050260#64 = .ok (.mld 5 2 6) ∧
  decode 0x24765000#64 = .ok (.mmul 7 6 5) ∧ decode 0x26140000#64 = .ok (.mtrn 1 4) ∧
  decode 0x24765100#64 = .error .strayBits ∧ decode 0x17000000#64 = .error .reservedOpcode ∧
  decode 0x100000000#64 = .error .highBits

/-- R47: a value that matches no row raises IllegalCommand and changes nothing else; in particular one
with a bit of 63:32 set, a reserved opcode, or a bit of `z` set. -/
def Obligations.IllegalValuesRaiseIllegalCommand : Prop :=
  ∀ (s : State) (w : Word) (rest : List HostAccess),
    s.accesses = .write 0x00 8 w :: rest → s.fault = false →
    (w.extractLsb' 32 32 ≠ 0#32 ∨ (∀ r ∈ opcodeTable, w.extractLsb' 0 32 &&& r.mask ≠ r.pattern) ∨
      (let op := (w.extractLsb' 24 8).toNat
       (0x04 ≤ op ∧ op ≤ 0x0F) ∨ op = 0x17 ∨ (0x1D ≤ op ∧ op ≤ 0x1F) ∨ 0x2B ≤ op) ∨
      w.extractLsb' 0 4 ≠ 0#4) →
    step s = .next { s with accesses := rest, fault := true, fcode := 1#8, fcmd := w, finfo := 0#64 }

/-! ### The step and the host's window -/

/-- A step whose access writes a legal value to CMD, with no fault recorded, is the decoded command. -/
def Obligations.StepRunsTheDecodedCommand : Prop :=
  ∀ (s : State) (w : Word) (rest : List HostAccess) (i : Instr),
    s.accesses = .write 0x00 8 w :: rest → s.fault = false → decode w = .ok i →
    step s = exec i { s with accesses := rest }

/-- R104: while FAULT = 1 every write to CMD but the exact value of CLRF is dropped, that one clears the
fault registers, reads return the window's registers and writes of DIN work as always. -/
def Obligations.FaultedStateDropsCommands : Prop :=
  ∀ (s : State) (rest : List HostAccess), s.fault = true →
    (∀ w, s.accesses = .write 0x00 8 w :: rest → w ≠ 0x0000000001000000#64 →
      step s = .next { s with accesses := rest }) ∧
    (s.accesses = .write 0x00 8 0x0000000001000000#64 :: rest →
      step s = .next
        { s with accesses := rest, fault := false, fcode := 0#8, fcmd := 0#64, finfo := 0#64 }) ∧
    (∀ v, s.accesses = .write 0x08 8 v :: rest → step s = .next { s with accesses := rest, din := v }) ∧
    (∀ r, s.accesses = .read (windowOffset r) 8 :: rest →
      step s = .next { s with accesses := rest, reads := s.reads ++ [windowValue r s] })

/-- R32 with the table of R31: what each read returns; no register changes. -/
def Obligations.HostReadReturnsTheRegister : Prop :=
  ∀ (s : State) (off : Int) (rest : List HostAccess), s.accesses = .read off 8 :: rest →
    ∀ v : Word,
      (off = 0x00 ∧ v = 0#64) ∨ (off = 0x08 ∧ v = s.din) ∨ (off = 0x10 ∧ v = s.dout) ∨
        (off = 0x18 ∧ v = status s) ∨ (off = 0x20 ∧ v = s.fcmd) ∨ (off = 0x28 ∧ v = s.finfo) →
      step s = .next { s with accesses := rest, reads := s.reads ++ [v] }

/-- R33: what each write does. -/
def Obligations.HostWriteEffects : Prop :=
  ∀ (s : State) (off : Int) (v : Word) (rest : List HostAccess), s.accesses = .write off 8 v :: rest →
    (off = 0x08 → step s = .next { s with accesses := rest, din := v }) ∧
    (off = 0x10 ∨ off = 0x18 ∨ off = 0x20 ∨ off = 0x28 → step s = .next { s with accesses := rest }) ∧
    (off = 0x00 → step s = executeCommand v { s with accesses := rest })

/-- R34, R37: exactly the aligned 64-bit accesses to the six registers are served; every other is refused. -/
def Obligations.UndefinedAccessesAreRefused : Prop :=
  ∀ (s : State) (off : Int) (width : Nat) (v : Word) (rest : List HostAccess),
    s.accesses = .read off width :: rest ∨ s.accesses = .write off width v :: rest →
    ((∃ r, step s = .refused r) ↔
      (width ≠ 8 ∨ off % 8 ≠ 0 ∨ off < 0 ∨ 0x40 ≤ off ∨ off = 0x30 ∨ off = 0x38))

/-- The model's own form of R38 and R107 (log entry 1): a step serves the first access that waits and leaves
the later ones; it records a value only for a read, and only at the end; with no access waiting nothing
changes. -/
def Obligations.AccessesAreServedInOrder : Prop :=
  ∀ s : State, (s.accesses = [] → step s = .next s) ∧
    ∀ a rest t, s.accesses = a :: rest → step s = .next t →
      t.accesses = rest ∧
      ((∃ off width, a = .read off width) → ∃ v, t.reads = s.reads ++ [v]) ∧
      ((∀ off width, a ≠ .read off width) → t.reads = s.reads)

/-- R22: STATUS bit by bit; a host write to it is ignored. -/
def Obligations.StatusBits : Prop :=
  ∀ s : State,
    (status s).getLsbD 0 = s.fault ∧ (status s).getLsbD 1 = s.hReg.isSome ∧
    (status s).getLsbD 2 = s.cReg.isSome ∧ (status s).getLsbD 3 = s.rReg.isSome ∧
    (status s).getLsbD 4 = s.vReg.isSome ∧ (status s).getLsbD 5 = s.uReg.isSome ∧
    (status s).getLsbD 6 = s.sReg.isSome ∧ (status s).getLsbD 7 = s.locReg.isSome ∧
    (∀ b < 8, (status s).getLsbD (8 + b) = s.fcode.getLsbD b) ∧
    (∀ k < 8, (status s).getLsbD (16 + k) = (matrixReg k s).isSome) ∧
    (status s).getLsbD 24 = s.modReg.isSome ∧
    (∀ b, 25 ≤ b → (status s).getLsbD b = false) ∧
    ∀ v, hostWrite 0x18 8 v s = .next s

/-- The little-endian byte layout of a window register (R35): the eight bytes make the value, and byte `k`
is at `BASE + off + k`. -/
def Obligations.WindowBytesAreLittleEndian : Prop :=
  ∀ v : Word,
    v.toNat = ∑ k ∈ Finset.range 8, (registerByte v k).toNat * 256 ^ k ∧
    ∀ (r : WindowReg) (k : Nat), offsetOf (byteAddress r k) = windowOffset r + k

/-! ### Faults -/

/-- R102: whatever the command and the state, it either completes, with the fault registers as they were
or cleared by CLRF, or changes nothing but the fault registers. -/
def Obligations.CommandCompletesOrOnlyFaults : Prop :=
  ∀ (i : Instr) (s : State), s.fault = false →
    ∃ t, exec i s = .next t ∧
      ((t.fault = false ∧ (i ≠ .clrf → t.fcode = s.fcode ∧ t.fcmd = s.fcmd ∧ t.finfo = s.finfo)) ∨
        ∃ (c : Cause) (info : Word), (c ≠ .singularMatrix → info = 0#64) ∧
          Faults i s (causeCode c) info ∧
          t = { s with fault := true, fcode := causeCode c, fcmd := encode i, finfo := info })

/-- R103: fault entry in a step: FCMD is the value written. -/
def Obligations.FaultEntryRecordsTheWrittenValue : Prop :=
  ∀ (s t : State) (w : Word) (rest : List HostAccess),
    s.accesses = .write 0x00 8 w :: rest → s.fault = false → step s = .next t → t.fault = true →
    ∃ (c : Cause) (info : Word), (c ≠ .singularMatrix → info = 0#64) ∧
      t = { s with accesses := rest, fault := true, fcode := causeCode c, fcmd := w, finfo := info }

/-- R112: a command raises no fault that the matrix does not list for it. -/
def Obligations.OnlyListedFaultsAreRaised : Prop :=
  ∀ (i : Instr) (s t : State), s.fault = false → exec i s = .next t → t.fault = true →
    ∃ c ∈ allowedCauses i, t.fcode = causeCode c

/-- R105: after CLRF the unit is in the state it had before the faulting command. -/
def Obligations.ClrfUndoesTheFault : Prop :=
  ∀ (i : Instr) (s t : State), Inv s → s.fault = false → exec i s = .next t → t.fault = true →
    exec .clrf t = .next s

/-- With no CLRF and no Reset in a run, FAULT = 0 at its end means that FAULT was 0 all along, so that no
command of it faulted or was dropped (R111, where the run is understood to hold no CLRF: log entry 6). -/
def Obligations.NoFaultAtTheEndMeansNoneOnTheWay : Prop :=
  ∀ (p : List HostAccess) (s t : State), s.fault = false →
    (∀ a ∈ p, a ≠ .reset ∧ a ≠ .write 0x00 8 0x0000000001000000#64) →
    runAccesses p s = .next t → wentWrong t = false →
    ∀ k ≤ p.length, ∃ m, runSteps k { s with accesses := p } = .next m ∧
      wentWrong m = false

/-! ### What no command does -/

/-- The "written by" column of R10 (R29): each register changes only by the commands listed for it. -/
def Obligations.RegistersChangeOnlyByTheirCommands : Prop :=
  ∀ (i : Instr) (s t : State), exec i s = .next t →
    t.din = s.din ∧ t.accesses = s.accesses ∧ t.reads = s.reads ∧
    (∀ k, destination i ≠ some k → matrixReg k t = matrixReg k s) ∧
    (i ≠ .setmod → t.modReg = s.modReg) ∧
    (writesDout i = false → t.dout = s.dout) ∧
    (i ≠ .hldh → t.hReg = s.hReg) ∧ (i ≠ .hldc → t.cReg = s.cReg) ∧ (i ≠ .hldr → t.rReg = s.rReg) ∧
    (i ≠ .hldv → i ≠ .hprj → t.vReg = s.vReg) ∧
    (writesU i = false → t.uReg = s.uReg) ∧
    (writesU i = false → i ≠ .hldh → i ≠ .hsyn → t.sReg = s.sReg) ∧
    (writesU i = false → i ≠ .hldh → i ≠ .hsyn → i ≠ .hloc → t.locReg = s.locReg)

/-- R20: but for reset, no valid bit other than SV and LV is ever cleared. -/
def Obligations.ValidBitsAreClearedOnlyByReset : Prop :=
  ∀ s t : State, step s = .next t → (∀ rest, s.accesses ≠ .reset :: rest) →
    (∀ k, (matrixReg k s).isSome → (matrixReg k t).isSome) ∧
    (s.modReg.isSome → t.modReg.isSome) ∧ (s.hReg.isSome → t.hReg.isSome) ∧
    (s.cReg.isSome → t.cReg.isSome) ∧ (s.rReg.isSome → t.rReg.isSome) ∧
    (s.vReg.isSome → t.vReg.isSome) ∧ (s.uReg.isSome → t.uReg.isSome)

/-- A matrix register holds what was last written to it, and a write changes that register only (R12). -/
def Obligations.MatrixRegisterReadAfterWrite : Prop :=
  ∀ (s : State) (k : Nat) (A : Mat), k < 8 →
    matrixReg k (writeMatrix k A s) = some A ∧
    (∀ m, m ≠ k → matrixReg m (writeMatrix k A s) = matrixReg m s) ∧
    { writeMatrix k A s with mregs := s.mregs } = s

/-! ### The system commands -/

/-- R54, R55: their words and effects, with a fault recorded or not. -/
def Obligations.NopAndClrfEffects : Prop :=
  encode .nop = 0x00000000#64 ∧ encode .clrf = 0x01000000#64 ∧
  ∀ s : State, exec .nop s = .next s ∧ executeCommand 0x00000000#64 s = .next s ∧
    exec .clrf s = .next { s with fault := false, fcode := 0#8, fcmd := 0#64, finfo := 0#64 } ∧
    executeCommand 0x01000000#64 s
      = .next { s with fault := false, fcode := 0#8, fcmd := 0#64, finfo := 0#64 } ∧
    (Inv s → s.fault = false → exec .clrf s = .next s)

/-- R56. -/
def Obligations.SetmodEffect : Prop :=
  encode .setmod = 0x02000000#64 ∧
  ∀ s : State,
    (s.din.toInt < 2 → Faults .setmod s 5#8 0#64) ∧
    (2 ≤ s.din.toInt → exec .setmod s = .next { s with modReg := some s.din })

/-- R57. -/
def Obligations.GetmodEffect : Prop :=
  encode .getmod = 0x03000000#64 ∧
  ∀ s : State,
    (s.modReg = none → Faults .getmod s 3#8 0#64) ∧
    (∀ n, s.modReg = some n → exec .getmod s = .next { s with dout := n })

/-! ### The Hamming commands -/

/-- R58, R59, R60: the three configuration matrices, with the places of their elements in DIN. -/
def Obligations.HammingMatrixLoads : Prop :=
  encode .hldh = 0x10000000#64 ∧ encode .hldc = 0x11000000#64 ∧ encode .hldr = 0x12000000#64 ∧
  ∀ s : State,
    (2 ^ 21 ≤ s.din.toNat → Faults .hldh s 5#8 0#64) ∧
    (s.din.toNat < 2 ^ 21 → ∃ H : BitVec 21,
      exec .hldh s = .next { s with hReg := some H, sReg := none, locReg := none } ∧
      ∀ r < 3, ∀ k < 7, element H r k = s.din.getLsbD (7 * r + k)) ∧
    (2 ^ 28 ≤ s.din.toNat → Faults .hldc s 5#8 0#64 ∧ Faults .hldr s 5#8 0#64) ∧
    (s.din.toNat < 2 ^ 28 → ∃ C : BitVec 28,
      exec .hldc s = .next { s with cReg := some C } ∧
      exec .hldr s = .next { s with rReg := some C } ∧
      ∀ r < 4, ∀ k < 7, element C r k = s.din.getLsbD (7 * r + k))

/-- R61, R62. -/
def Obligations.HammingBlockLoads : Prop :=
  encode .hldv = 0x13000000#64 ∧ encode .hldu = 0x14000000#64 ∧
  ∀ s : State,
    (2 ^ 4 ≤ s.din.toNat → Faults .hldv s 5#8 0#64) ∧
    (s.din.toNat < 2 ^ 4 → ∃ v : BitVec 4,
      exec .hldv s = .next { s with vReg := some v } ∧ v.toNat = s.din.toNat) ∧
    (2 ^ 7 ≤ s.din.toNat → Faults .hldu s 5#8 0#64) ∧
    (s.din.toNat < 2 ^ 7 → ∃ u : BitVec 7,
      exec .hldu s = .next { s with uReg := some u, sReg := none, locReg := none } ∧
      u.toNat = s.din.toNat)

/-- R63. -/
def Obligations.HrdEffect : Prop :=
  (∀ i < 16, (encode (.hrd i)).toNat = 0x15000000 ||| i <<< 8) ∧
  ∀ s : State, HrdReads 0 s.hReg s ∧ HrdReads 1 s.cReg s ∧ HrdReads 2 s.rReg s ∧ HrdReads 3 s.vReg s ∧
    HrdReads 4 s.uReg s ∧ HrdReads 5 s.sReg s ∧ HrdReads 6 s.locReg s ∧
    ∀ i, 7 ≤ i → Faults (.hrd i) s 4#8 0#64

/-- R64. -/
def Obligations.HflipEffect : Prop :=
  (∀ p < 16, (encode (.hflip p)).toNat = 0x16000000 ||| p <<< 4) ∧
  ∀ (s : State) (p : Nat),
    (s.uReg = none → Faults (.hflip p) s 3#8 0#64) ∧
    ∀ u, s.uReg = some u →
      (6 < p → Faults (.hflip p) s 4#8 0#64) ∧
      (p ≤ 6 → ∃ x : BitVec 7,
        exec (.hflip p) s = .next { s with uReg := some x, sReg := none, locReg := none } ∧
        ∀ k < 7, (x.getLsbD k).toNat
          = if k = p then ((u.getLsbD k).toNat + 1) % 2 else (u.getLsbD k).toNat)

/-- R65: `u = (C^T · v) mod 2`. -/
def Obligations.HencEffect : Prop :=
  encode .henc = 0x18000000#64 ∧
  ∀ s : State,
    (s.cReg = none ∨ s.vReg = none → Faults .henc s 3#8 0#64) ∧
    ∀ C v, s.cReg = some C → s.vReg = some v → ∃ u : BitVec 7,
      exec .henc s = .next { s with uReg := some u, sReg := none, locReg := none } ∧
      ∀ k < 7, (u.getLsbD k).toNat
        = (∑ r ∈ Finset.range 4, (C.getLsbD (7 * r + k)).toNat * (v.getLsbD r).toNat) % 2

/-- R66: `s = (H · u) mod 2`. -/
def Obligations.HsynEffect : Prop :=
  encode .hsyn = 0x19000000#64 ∧
  ∀ s : State,
    (s.hReg = none ∨ s.uReg = none → Faults .hsyn s 3#8 0#64) ∧
    ∀ H u, s.hReg = some H → s.uReg = some u → ∃ x : BitVec 3,
      exec .hsyn s = .next { s with sReg := some x, locReg := none } ∧
      ∀ r < 3, (x.getLsbD r).toNat
        = (∑ k ∈ Finset.range 7, (H.getLsbD (7 * r + k)).toNat * (u.getLsbD k).toNat) % 2

/-- R67: the locator's fixed table. -/
def Obligations.HlocEffect : Prop :=
  encode .hloc = 0x1A000000#64 ∧
  ∀ s : State,
    (s.sReg = none → Faults .hloc s 3#8 0#64) ∧
    ∀ x, s.sReg = some x → ∃ l : BitVec 4,
      exec .hloc s = .next { s with locReg := some l } ∧
      (x = 0#3 → l = 0#4) ∧
      (x ≠ 0#3 → l.toNat = 8 + (4 * (x.getLsbD 2).toNat + 2 * (x.getLsbD 1).toNat
        + (x.getLsbD 0).toNat - 1))

/-- R68. `LV = 1` implies `UV = 1` in every state of a run (R21), so LOC valid with ERR = 1 leaves the one
case that U is valid. -/
def Obligations.HcorEffect : Prop :=
  encode .hcor = 0x1B000000#64 ∧
  ∀ s : State,
    (s.locReg = none → Faults .hcor s 3#8 0#64) ∧
    ∀ l, s.locReg = some l →
      (l.getLsbD 3 = false → exec .hcor s = .next s) ∧
      (l.getLsbD 3 = true → ∀ u, s.uReg = some u → ∃ x : BitVec 7,
        exec .hcor s = .next { s with uReg := some x, sReg := none, locReg := none } ∧
        ∀ k < 7, (x.getLsbD k).toNat
          = if k = l.toNat % 8 then ((u.getLsbD k).toNat + 1) % 2 else (u.getLsbD k).toNat)

/-- R69: `v = (R · u) mod 2`. -/
def Obligations.HprjEffect : Prop :=
  encode .hprj = 0x1C000000#64 ∧
  ∀ s : State,
    (s.rReg = none ∨ s.uReg = none → Faults .hprj s 3#8 0#64) ∧
    ∀ R u, s.rReg = some R → s.uReg = some u → ∃ v : BitVec 4,
      exec .hprj s = .next { s with vReg := some v } ∧
      ∀ r < 4, (v.getLsbD r).toNat
        = (∑ k ∈ Finset.range 7, (R.getLsbD (7 * r + k)).toNat * (u.getLsbD k).toNat) % 2

/-- R70: column `p` of H* is the binary representation of `p + 1`, row 0 least significant, and H* is the
only parity-check matrix with which the locator names every single error. -/
def Obligations.HStarIsTheOnlyMatrixThatLocates : Prop :=
  hStar = 0x1E3355#21 ∧ (∀ r < 3, ∀ p < 7, (element hStar r p).toNat = (p + 1) / 2 ^ r % 2) ∧
  ∀ H : BitVec 21,
    (∀ u : BitVec 7, syndrome H u = 0#3 → ∀ p < 7,
      (locate (syndrome H (flipBit p u))).toNat = 8 + p) ↔ H = hStar

/-- R72: round trip, single-error correction, and zero syndrome if and only if codeword, for H* and every
C and R that satisfy R71 (b) and (c). The block `v` is in DIN, where HLDV takes it from. -/
def Obligations.HammingCodeCorrectsSingleErrors : Prop :=
  ∀ (s : State) (C R : BitVec 28),
    s.fault = false → s.hReg = some hStar → s.cReg = some C → s.rReg = some R →
    gfProductIs hStar C 3 4 false → gfProductIs R C 4 4 true →
    (∀ v : BitVec 4, s.din = v.setWidth 64 →
      (∃ t, runCommands [.hldv, .henc, .hprj] s = .next t ∧ t.fault = false ∧ t.vReg = some v) ∧
      ∀ p < 7, ∃ c l t, runCommands [.hldv, .henc] s = .next c ∧ c.uReg.isSome ∧
        runCommands [.hflip p, .hsyn, .hloc] c = .next l ∧
        l.locReg.map BitVec.toNat = some (8 + p) ∧ runCommands [.hcor] l = .next t ∧
        t.fault = false ∧ t.uReg = c.uReg ∧
        ∃ z, runCommands [.hsyn] t = .next z ∧ z.sReg = some 0#3) ∧
    (∀ u, s.uReg = some u → ∃ t, exec .hsyn s = .next t ∧
      (t.sReg = some 0#3 ↔ ∃ (v : BitVec 4) (c : State),
        exec .henc { s with vReg := some v } = .next c ∧ c.uReg = some u))

/-- R73, R74: with H*, whatever U holds, HSYN, HLOC, HCOR run without a fault and leave a word of zero
syndrome at distance at most 1; two flipped bits are so miscorrected at a third bit, without a signal. -/
def Obligations.DoubleErrorsAreMiscorrectedSilently : Prop :=
  ∀ (s : State) (u : BitVec 7), s.fault = false → s.hReg = some hStar → s.uReg = some u →
    ∃ t x, runCommands [.hsyn, .hloc, .hcor] s = .next t ∧ t.fault = false ∧ t.uReg = some x ∧
      syndrome hStar x = 0#3 ∧ (x = u ∨ ∃ p < 7, x = flipBit p u) ∧
      ∀ c p q : Nat, ∀ w : BitVec 7, p < 7 → q < 7 → p ≠ q → syndrome hStar w = 0#3 →
        u = flipBit q (flipBit p w) → c + 1 = (p + 1) ^^^ (q + 1) →
        c < 7 ∧ c ≠ p ∧ c ≠ q ∧ x = flipBit c u ∧ x ≠ w

/-! ### The matrix engine -/

/-- R77. -/
def Obligations.MshapeEffect : Prop :=
  (∀ rd < 16, ∀ i < 16, ∀ j < 16,
    (encode (.mshape rd i j)).toNat = 0x20000000 ||| rd <<< 20 ||| i <<< 8 ||| j <<< 4) ∧
  ∀ (s : State) (rd i j : Nat),
    (8 ≤ rd → Faults (.mshape rd i j) s 2#8 0#64) ∧
    (rd < 8 → i = 0 ∨ 8 < i ∨ j = 0 ∨ 8 < j → Faults (.mshape rd i j) s 4#8 0#64) ∧
    (rd < 8 → 1 ≤ i → i ≤ 8 → 1 ≤ j → j ≤ 8 → ∃ P : Mat,
      exec (.mshape rd i j) s = .next (writeMatrix rd P s) ∧
      P.rows = i ∧ P.cols = j ∧ P.full ∧ ∀ a b, entry P a b = 0#64)

/-- R78. -/
def Obligations.MstEffect : Prop :=
  (∀ rd < 16, ∀ i < 16, ∀ j < 16,
    (encode (.mst rd i j)).toNat = 0x21000000 ||| rd <<< 20 ||| i <<< 8 ||| j <<< 4) ∧
  ∀ (s : State) (rd i j : Nat),
    (8 ≤ rd → Faults (.mst rd i j) s 2#8 0#64) ∧
    (rd < 8 → matrixReg rd s = none → Faults (.mst rd i j) s 3#8 0#64) ∧
    ∀ A, rd < 8 → matrixReg rd s = some A →
      (A.rows ≤ i ∨ A.cols ≤ j → Faults (.mst rd i j) s 4#8 0#64) ∧
      (i < A.rows → j < A.cols → ∃ P : Mat,
        exec (.mst rd i j) s = .next (writeMatrix rd P s) ∧
        P.rows = A.rows ∧ P.cols = A.cols ∧ P.full ∧ entry P i j = s.din ∧
        ∀ a < A.rows, ∀ b < A.cols, ¬(a = i ∧ b = j) → entry P a b = entry A a b)

/-- R79. -/
def Obligations.MldEffect : Prop :=
  (∀ ra < 16, ∀ i < 16, ∀ j < 16,
    (encode (.mld ra i j)).toNat = 0x22000000 ||| ra <<< 16 ||| i <<< 8 ||| j <<< 4) ∧
  ∀ (s : State) (ra i j : Nat),
    (8 ≤ ra → Faults (.mld ra i j) s 2#8 0#64) ∧
    (ra < 8 → matrixReg ra s = none → Faults (.mld ra i j) s 3#8 0#64) ∧
    ∀ A, ra < 8 → matrixReg ra s = some A →
      (A.rows ≤ i ∨ A.cols ≤ j → Faults (.mld ra i j) s 4#8 0#64) ∧
      (i < A.rows → j < A.cols → exec (.mld ra i j) s = .next { s with dout := entry A i j })

/-- R80. -/
def Obligations.MdimEffect : Prop :=
  (∀ ra < 16, (encode (.mdim ra)).toNat = 0x23000000 ||| ra <<< 16) ∧
  ∀ (s : State) (ra : Nat),
    (8 ≤ ra → Faults (.mdim ra) s 2#8 0#64) ∧
    (ra < 8 → matrixReg ra s = none → Faults (.mdim ra) s 3#8 0#64) ∧
    ∀ A, ra < 8 → matrixReg ra s = some A →
      exec (.mdim ra) s = .next { s with dout := BitVec.ofNat 64 (A.rows * 16 + A.cols) }

/-- R81. -/
def Obligations.MmulEffect : Prop :=
  (∀ rd < 16, ∀ ra < 16, ∀ rb < 16,
    (encode (.mmul rd ra rb)).toNat = 0x24000000 ||| rd <<< 20 ||| ra <<< 16 ||| rb <<< 12) ∧
  ∀ (s : State) (rd ra rb : Nat),
    (8 ≤ rd ∨ 8 ≤ ra ∨ 8 ≤ rb → Faults (.mmul rd ra rb) s 2#8 0#64) ∧
    (rd < 8 → ra < 8 → rb < 8 → matrixReg ra s = none ∨ matrixReg rb s = none →
      Faults (.mmul rd ra rb) s 3#8 0#64) ∧
    ∀ A B, rd < 8 → ra < 8 → rb < 8 → matrixReg ra s = some A → matrixReg rb s = some B →
      (A.cols ≠ B.rows → Faults (.mmul rd ra rb) s 6#8 0#64) ∧
      ∀ p : Nat → Nat → Int,
        (∀ a b, p a b = ∑ t ∈ Finset.range A.cols, entryInt A a t * entryInt B t b) →
        A.cols = B.rows →
        ((∃ a < A.rows, ∃ b < B.cols, p a b < -2 ^ 63 ∨ 2 ^ 63 - 1 < p a b) →
          Faults (.mmul rd ra rb) s 8#8 0#64) ∧
        ((∀ a < A.rows, ∀ b < B.cols, -2 ^ 63 ≤ p a b ∧ p a b ≤ 2 ^ 63 - 1) → ∃ P : Mat,
          exec (.mmul rd ra rb) s = .next (writeMatrix rd P s) ∧
          P.rows = A.rows ∧ P.cols = B.cols ∧ P.full ∧
          ∀ a < A.rows, ∀ b < B.cols, entryInt P a b = p a b)

/-- R82. -/
def Obligations.MredEffect : Prop :=
  (∀ rd < 16, ∀ ra < 16, (encode (.mred rd ra)).toNat = 0x25000000 ||| rd <<< 20 ||| ra <<< 16) ∧
  ∀ (s : State) (rd ra : Nat),
    (8 ≤ rd ∨ 8 ≤ ra → Faults (.mred rd ra) s 2#8 0#64) ∧
    (rd < 8 → ra < 8 → matrixReg ra s = none ∨ s.modReg = none → Faults (.mred rd ra) s 3#8 0#64) ∧
    ∀ A n, rd < 8 → ra < 8 → matrixReg ra s = some A → s.modReg = some n → 2 ≤ sext64 n → ∃ P : Mat,
      exec (.mred rd ra) s = .next (writeMatrix rd P s) ∧
      P.rows = A.rows ∧ P.cols = A.cols ∧ P.full ∧
      ∀ a < A.rows, ∀ b < A.cols,
        0 ≤ entryInt P a b ∧ entryInt P a b < n.toNat ∧ (n.toNat : Int) ∣ entryInt A a b - entryInt P a b

/-- R86, with the two transposes that restore a matrix. -/
def Obligations.MtrnEffect : Prop :=
  (∀ rd < 16, ∀ ra < 16, (encode (.mtrn rd ra)).toNat = 0x26000000 ||| rd <<< 20 ||| ra <<< 16) ∧
  ∀ (s : State) (rd ra : Nat),
    (8 ≤ rd ∨ 8 ≤ ra → Faults (.mtrn rd ra) s 2#8 0#64) ∧
    (rd < 8 → ra < 8 → matrixReg ra s = none → Faults (.mtrn rd ra) s 3#8 0#64) ∧
    ∀ A, rd < 8 → ra < 8 → matrixReg ra s = some A → ∃ P : Mat,
      exec (.mtrn rd ra) s = .next (writeMatrix rd P s) ∧
      P.rows = A.cols ∧ P.cols = A.rows ∧ P.full ∧
      (∀ a < A.rows, ∀ b < A.cols, entry P b a = entry A a b) ∧
      (A.full → exec (.mtrn rd rd) (writeMatrix rd P s) = .next (writeMatrix rd A s))

/-- R90. -/
def Obligations.MztEffect : Prop :=
  (∀ ra < 16, (encode (.mzt ra)).toNat = 0x2A000000 ||| ra <<< 16) ∧
  ∀ (s : State) (ra : Nat),
    (8 ≤ ra → Faults (.mzt ra) s 2#8 0#64) ∧
    (ra < 8 → matrixReg ra s = none → Faults (.mzt ra) s 3#8 0#64) ∧
    ∀ A, ra < 8 → matrixReg ra s = some A →
      ((∀ a < A.rows, ∀ b < A.cols, entryInt A a b = 0) →
        exec (.mzt ra) s = .next { s with dout := 1#64 }) ∧
      ((∃ a < A.rows, ∃ b < A.cols, entryInt A a b ≠ 0) →
        exec (.mzt ra) s = .next { s with dout := 0#64 })

/-- R83: the determinant is the signed sum over all permutations, over the integers, and modulo N it is the
determinant of the residues. -/
def Obligations.DetIsThePermutationSum : Prop :=
  ∀ (n : Nat) (A : Nat → Nat → Int),
    det n A = ∑ p : Equiv.Perm (Fin n), (Equiv.Perm.sign p : Int) * ∏ a : Fin n, A a (p a) ∧
    ∀ N : Int, 2 ≤ N → det n A % N = det n (fun a b => A a b % N) % N

/-- R84: an entry of the adjugate is the signed determinant with row `b` and column `a` removed, and
`A · adj(A) = adj(A) · A = det(A) · I`. -/
def Obligations.AdjugateIdentity : Prop :=
  ∀ (n : Nat) (A : Nat → Nat → Int), ∀ a < n, ∀ b < n,
    adj n A a b = (-1) ^ (a + b) *
      det (n - 1) (fun r c => A (if r < b then r else r + 1) (if c < a then c else c + 1)) ∧
    (∑ t ∈ Finset.range n, A a t * adj n A t b) = (if a = b then det n A else 0) ∧
    (∑ t ∈ Finset.range n, adj n A a t * A t b) = (if a = b then det n A else 0)

/-- R85: the modular inverse exists exactly when the number and the modulus share no factor, and it is the
only one in its range. -/
def Obligations.InvModIsTheInverse : Prop :=
  ∀ d n : Int, 2 ≤ n → 0 ≤ d → d < n →
    (Int.gcd d n = 1 →
      0 ≤ invMod d n ∧ invMod d n < n ∧ d * invMod d n % n = 1 ∧
      ∀ e, 0 ≤ e → e < n → d * e % n = 1 → e = invMod d n) ∧
    ((∃ e, 0 ≤ e ∧ e < n ∧ d * e % n = 1) → Int.gcd d n = 1)

/-- R87. -/
def Obligations.MdetEffect : Prop :=
  (∀ ra < 16, (encode (.mdet ra)).toNat = 0x27000000 ||| ra <<< 16) ∧
  ∀ (s : State) (ra : Nat),
    (8 ≤ ra → Faults (.mdet ra) s 2#8 0#64) ∧
    (ra < 8 → matrixReg ra s = none ∨ s.modReg = none → Faults (.mdet ra) s 3#8 0#64) ∧
    ∀ A n, ra < 8 → matrixReg ra s = some A → s.modReg = some n →
      (A.rows ≠ A.cols → Faults (.mdet ra) s 6#8 0#64) ∧
      (A.rows = A.cols → 2 ≤ sext64 n → ∃ x : Word,
        exec (.mdet ra) s = .next { s with dout := x } ∧
        (x.toNat : Int) = (squareMatrix A).det % n.toNat)

/-- R88. -/
def Obligations.MinvEffect : Prop :=
  (∀ rd < 16, ∀ ra < 16, (encode (.minv rd ra)).toNat = 0x28000000 ||| rd <<< 20 ||| ra <<< 16) ∧
  ∀ (s : State) (rd ra : Nat),
    (8 ≤ rd ∨ 8 ≤ ra → Faults (.minv rd ra) s 2#8 0#64) ∧
    (rd < 8 → ra < 8 → matrixReg ra s = none ∨ s.modReg = none → Faults (.minv rd ra) s 3#8 0#64) ∧
    ∀ A n, rd < 8 → ra < 8 → matrixReg ra s = some A → s.modReg = some n →
      (A.rows ≠ A.cols → Faults (.minv rd ra) s 6#8 0#64) ∧
      ∀ d : Int, d = (squareMatrix A).det % n.toNat → A.rows = A.cols → 2 ≤ sext64 n →
        (Int.gcd d n.toNat ≠ 1 → ∃ info : Word, (info.toNat : Int) = d ∧ Faults (.minv rd ra) s 7#8 info) ∧
        (Int.gcd d n.toNat = 1 → ∃ (e : Int) (P : Mat),
          exec (.minv rd ra) s = .next (writeMatrix rd P s) ∧
          0 ≤ e ∧ e < n.toNat ∧ d * e % n.toNat = 1 ∧
          P.rows = A.rows ∧ P.cols = A.rows ∧ P.full ∧
          ∀ a b : Fin A.rows, entryInt P a b = (squareMatrix A).adjugate a b * e % n.toNat)

/-- R89. -/
def Obligations.MchkEffect : Prop :=
  (∀ ra < 16, (encode (.mchk ra)).toNat = 0x29000000 ||| ra <<< 16) ∧
  ∀ (s : State) (ra : Nat),
    (8 ≤ ra → Faults (.mchk ra) s 2#8 0#64) ∧
    (ra < 8 → matrixReg ra s = none ∨ s.modReg = none → Faults (.mchk ra) s 3#8 0#64) ∧
    ∀ A n, ra < 8 → matrixReg ra s = some A → s.modReg = some n →
      (A.rows ≠ A.cols → Faults (.mchk ra) s 6#8 0#64) ∧
      ∀ d : Int, d = (squareMatrix A).det % n.toNat → A.rows = A.cols → 2 ≤ sext64 n →
        ∃ x : Word, (x.toNat : Int) = d ∧
          (Int.gcd d n.toNat ≠ 1 → Faults (.mchk ra) s 7#8 x) ∧
          (Int.gcd d n.toNat = 1 → exec (.mchk ra) s = .next { s with dout := x })

/-- R94: the stored inverse is an inverse on both sides and the only matrix with entries in `[0, N)` that is;
without one the determinant shares a factor with N. -/
def Obligations.MinvStoresTheUniqueInverse : Prop :=
  ∀ (s : State) (rd ra : Nat) (A : Mat) (n : Word), rd < 8 → ra < 8 →
    matrixReg ra s = some A → A.rows = A.cols → s.modReg = some n → 2 ≤ sext64 n →
    (Int.gcd ((squareMatrix A).det % n.toNat) n.toNat = 1 → ∃ P : Mat,
      exec (.minv rd ra) s = .next (writeMatrix rd P s) ∧
      (∀ a < A.rows, ∀ b < A.rows,
        0 ≤ entryInt P a b ∧ entryInt P a b < n.toNat ∧
        (∑ k ∈ Finset.range A.rows, entryInt A a k * entryInt P k b) % n.toNat = (if a = b then 1 else 0) ∧
        (∑ k ∈ Finset.range A.rows, entryInt P a k * entryInt A k b) % n.toNat = if a = b then 1 else 0) ∧
      ∀ Y : Nat → Nat → Int, (∀ a < A.rows, ∀ b < A.rows, 0 ≤ Y a b ∧ Y a b < n.toNat) →
        (∀ a < A.rows, ∀ b < A.rows,
          (∑ k ∈ Finset.range A.rows, entryInt A a k * Y k b) % n.toNat = if a = b then 1 else 0) →
        ∀ a < A.rows, ∀ b < A.rows, entryInt P a b = Y a b) ∧
    (Int.gcd ((squareMatrix A).det % n.toNat) n.toNat ≠ 1 → ¬∃ Y : Nat → Nat → Int,
      ∀ a < A.rows, ∀ b < A.rows,
        (∑ k ∈ Finset.range A.rows, entryInt A a k * Y k b) % n.toNat = if a = b then 1 else 0)

/-- R83, R88: the functions `detMod` and `adj`, by which the model computes the determinant modulo N and the
entries of an inverse, depend modulo N on the entries only through their residues. It speaks of these functions
and not of `exec`. -/
def Obligations.DetModAndAdjSeeOnlyResidues : Prop :=
  ∀ (A B : Mat) (n : Int), 2 ≤ n → A.rows = B.rows → A.rows = A.cols → B.rows = B.cols →
    (∀ a < A.rows, ∀ b < A.rows, entryInt A a b % n = entryInt B a b % n) →
    detMod A n = detMod B n ∧
    ∀ a < A.rows, ∀ b < A.rows, ∀ e : Int,
      adj A.rows (entryInt A) a b * e % n = adj B.rows (entryInt B) a b * e % n

/-- R95: the Hill cipher's round trip on the engine, for any registers that do not overwrite what is still
needed, whenever the run ends without a fault. -/
def Obligations.HillRoundTrip : Prop :=
  ∀ (s t : State) (k v d m e : Nat) (V : Mat) (n : Word),
    Inv s → s.fault = false → k < 16 → d < 16 → m < 16 → e < 16 → d ≠ k → m ≠ d →
    matrixReg v s = some V → s.modReg = some n →
    (∀ a < V.rows, ∀ b < V.cols, 0 ≤ entryInt V a b ∧ entryInt V a b < n.toNat) →
    runCommands [.mmul d k v, .mred d d, .minv m k, .mmul e m d, .mred e e] s = .next t →
    t.fault = false → matrixReg e t = some V

/-- R96: with MOD = 2, MMUL then MRED of H and U as integer matrices give HSYN's syndrome. -/
def Obligations.SyndromeOnTheEngine : Prop :=
  ∀ (s : State) (d h u : Nat) (A B : Mat) (H : BitVec 21) (x : BitVec 7),
    s.fault = false → d < 8 → h < 8 → u < 8 → s.modReg = some 2#64 →
    matrixReg h s = some A → matrixReg u s = some B →
    A.rows = 3 → A.cols = 7 → B.rows = 7 → B.cols = 1 →
    (∀ r < 3, ∀ k < 7, entryInt A r k = (element H r k).toNat) →
    (∀ k < 7, entryInt B k 0 = (x.getLsbD k).toNat) →
    ∃ t P, runCommands [.mmul d h u, .mred d d] s = .next t ∧ t.fault = false ∧
      matrixReg d t = some P ∧ P.rows = 3 ∧ P.cols = 1 ∧
      ∀ r < 3, entryInt P r 0 = ((syndrome H x).getLsbD r).toNat

/-! ### The assembly notation -/

/-- R50: the encoding of a statement is `op << 24 | rd << 20 | ra << 16 | rb << 12 | i << 8 | j << 4`. -/
def Obligations.EncodingFormula : Prop :=
  ∀ (op : BitVec 8) (rd ra rb i j : Nat),
    rd < 16 → ra < 16 → rb < 16 → i < 16 → j < 16 →
    (command op rd ra rb i j).toNat
      = op.toNat <<< 24 ||| rd <<< 20 ||| ra <<< 16 ||| rb <<< 12 ||| i <<< 8 ||| j <<< 4

/-- R52: the pseudo-instruction MCOPY copies a matrix register. -/
def Obligations.McopyCopiesTheRegister : Prop :=
  ∀ (s : State) (md ma : Nat) (A : Mat),
    s.fault = false → md < 8 → ma < 8 → matrixReg ma s = some A → A.full →
    runAccesses (programAccesses (Pseudo.mcopy md ma).expand) s
      = .next { writeMatrix md A s with accesses := [] }
end

