-- ==== Sys2Proof/Laws/State.lean ====
section
/-! SUPPORT. One lemma for each field under each named update of Ops.lean, true by rfl, and reading a matrix
register after each. -/

namespace Sys2Proof.Machine

variable (s : State)

/-! `writeMatrix` -/

@[simp] theorem writeMatrix_mregs (k : Nat) (A : Mat) : (writeMatrix k A s).mregs = s.mregs.setIfInBounds k (some A) := rfl
@[simp] theorem writeMatrix_modReg (k : Nat) (A : Mat) : (writeMatrix k A s).modReg = s.modReg := rfl
@[simp] theorem writeMatrix_din (k : Nat) (A : Mat) : (writeMatrix k A s).din = s.din := rfl
@[simp] theorem writeMatrix_dout (k : Nat) (A : Mat) : (writeMatrix k A s).dout = s.dout := rfl
@[simp] theorem writeMatrix_hReg (k : Nat) (A : Mat) : (writeMatrix k A s).hReg = s.hReg := rfl
@[simp] theorem writeMatrix_cReg (k : Nat) (A : Mat) : (writeMatrix k A s).cReg = s.cReg := rfl
@[simp] theorem writeMatrix_rReg (k : Nat) (A : Mat) : (writeMatrix k A s).rReg = s.rReg := rfl
@[simp] theorem writeMatrix_vReg (k : Nat) (A : Mat) : (writeMatrix k A s).vReg = s.vReg := rfl
@[simp] theorem writeMatrix_uReg (k : Nat) (A : Mat) : (writeMatrix k A s).uReg = s.uReg := rfl
@[simp] theorem writeMatrix_sReg (k : Nat) (A : Mat) : (writeMatrix k A s).sReg = s.sReg := rfl
@[simp] theorem writeMatrix_locReg (k : Nat) (A : Mat) : (writeMatrix k A s).locReg = s.locReg := rfl
@[simp] theorem writeMatrix_fault (k : Nat) (A : Mat) : (writeMatrix k A s).fault = s.fault := rfl
@[simp] theorem writeMatrix_fcode (k : Nat) (A : Mat) : (writeMatrix k A s).fcode = s.fcode := rfl
@[simp] theorem writeMatrix_fcmd (k : Nat) (A : Mat) : (writeMatrix k A s).fcmd = s.fcmd := rfl
@[simp] theorem writeMatrix_finfo (k : Nat) (A : Mat) : (writeMatrix k A s).finfo = s.finfo := rfl
@[simp] theorem writeMatrix_accesses (k : Nat) (A : Mat) : (writeMatrix k A s).accesses = s.accesses := rfl
@[simp] theorem writeMatrix_reads (k : Nat) (A : Mat) : (writeMatrix k A s).reads = s.reads := rfl

/-! `writeMod` -/

@[simp] theorem writeMod_mregs (n : Word) : (writeMod n s).mregs = s.mregs := rfl
@[simp] theorem writeMod_modReg (n : Word) : (writeMod n s).modReg = some n := rfl
@[simp] theorem writeMod_din (n : Word) : (writeMod n s).din = s.din := rfl
@[simp] theorem writeMod_dout (n : Word) : (writeMod n s).dout = s.dout := rfl
@[simp] theorem writeMod_hReg (n : Word) : (writeMod n s).hReg = s.hReg := rfl
@[simp] theorem writeMod_cReg (n : Word) : (writeMod n s).cReg = s.cReg := rfl
@[simp] theorem writeMod_rReg (n : Word) : (writeMod n s).rReg = s.rReg := rfl
@[simp] theorem writeMod_vReg (n : Word) : (writeMod n s).vReg = s.vReg := rfl
@[simp] theorem writeMod_uReg (n : Word) : (writeMod n s).uReg = s.uReg := rfl
@[simp] theorem writeMod_sReg (n : Word) : (writeMod n s).sReg = s.sReg := rfl
@[simp] theorem writeMod_locReg (n : Word) : (writeMod n s).locReg = s.locReg := rfl
@[simp] theorem writeMod_fault (n : Word) : (writeMod n s).fault = s.fault := rfl
@[simp] theorem writeMod_fcode (n : Word) : (writeMod n s).fcode = s.fcode := rfl
@[simp] theorem writeMod_fcmd (n : Word) : (writeMod n s).fcmd = s.fcmd := rfl
@[simp] theorem writeMod_finfo (n : Word) : (writeMod n s).finfo = s.finfo := rfl
@[simp] theorem writeMod_accesses (n : Word) : (writeMod n s).accesses = s.accesses := rfl
@[simp] theorem writeMod_reads (n : Word) : (writeMod n s).reads = s.reads := rfl
@[simp] theorem matrixReg_writeMod (m : Nat) (n : Word) : matrixReg m (writeMod n s) = matrixReg m s := rfl

/-! `writeDin` -/

@[simp] theorem writeDin_mregs (v : Word) : (writeDin v s).mregs = s.mregs := rfl
@[simp] theorem writeDin_modReg (v : Word) : (writeDin v s).modReg = s.modReg := rfl
@[simp] theorem writeDin_din (v : Word) : (writeDin v s).din = v := rfl
@[simp] theorem writeDin_dout (v : Word) : (writeDin v s).dout = s.dout := rfl
@[simp] theorem writeDin_hReg (v : Word) : (writeDin v s).hReg = s.hReg := rfl
@[simp] theorem writeDin_cReg (v : Word) : (writeDin v s).cReg = s.cReg := rfl
@[simp] theorem writeDin_rReg (v : Word) : (writeDin v s).rReg = s.rReg := rfl
@[simp] theorem writeDin_vReg (v : Word) : (writeDin v s).vReg = s.vReg := rfl
@[simp] theorem writeDin_uReg (v : Word) : (writeDin v s).uReg = s.uReg := rfl
@[simp] theorem writeDin_sReg (v : Word) : (writeDin v s).sReg = s.sReg := rfl
@[simp] theorem writeDin_locReg (v : Word) : (writeDin v s).locReg = s.locReg := rfl
@[simp] theorem writeDin_fault (v : Word) : (writeDin v s).fault = s.fault := rfl
@[simp] theorem writeDin_fcode (v : Word) : (writeDin v s).fcode = s.fcode := rfl
@[simp] theorem writeDin_fcmd (v : Word) : (writeDin v s).fcmd = s.fcmd := rfl
@[simp] theorem writeDin_finfo (v : Word) : (writeDin v s).finfo = s.finfo := rfl
@[simp] theorem writeDin_accesses (v : Word) : (writeDin v s).accesses = s.accesses := rfl
@[simp] theorem writeDin_reads (v : Word) : (writeDin v s).reads = s.reads := rfl
@[simp] theorem matrixReg_writeDin (m : Nat) (v : Word) : matrixReg m (writeDin v s) = matrixReg m s := rfl

/-! `writeDout` -/

@[simp] theorem writeDout_mregs (v : Word) : (writeDout v s).mregs = s.mregs := rfl
@[simp] theorem writeDout_modReg (v : Word) : (writeDout v s).modReg = s.modReg := rfl
@[simp] theorem writeDout_din (v : Word) : (writeDout v s).din = s.din := rfl
@[simp] theorem writeDout_dout (v : Word) : (writeDout v s).dout = v := rfl
@[simp] theorem writeDout_hReg (v : Word) : (writeDout v s).hReg = s.hReg := rfl
@[simp] theorem writeDout_cReg (v : Word) : (writeDout v s).cReg = s.cReg := rfl
@[simp] theorem writeDout_rReg (v : Word) : (writeDout v s).rReg = s.rReg := rfl
@[simp] theorem writeDout_vReg (v : Word) : (writeDout v s).vReg = s.vReg := rfl
@[simp] theorem writeDout_uReg (v : Word) : (writeDout v s).uReg = s.uReg := rfl
@[simp] theorem writeDout_sReg (v : Word) : (writeDout v s).sReg = s.sReg := rfl
@[simp] theorem writeDout_locReg (v : Word) : (writeDout v s).locReg = s.locReg := rfl
@[simp] theorem writeDout_fault (v : Word) : (writeDout v s).fault = s.fault := rfl
@[simp] theorem writeDout_fcode (v : Word) : (writeDout v s).fcode = s.fcode := rfl
@[simp] theorem writeDout_fcmd (v : Word) : (writeDout v s).fcmd = s.fcmd := rfl
@[simp] theorem writeDout_finfo (v : Word) : (writeDout v s).finfo = s.finfo := rfl
@[simp] theorem writeDout_accesses (v : Word) : (writeDout v s).accesses = s.accesses := rfl
@[simp] theorem writeDout_reads (v : Word) : (writeDout v s).reads = s.reads := rfl
@[simp] theorem matrixReg_writeDout (m : Nat) (v : Word) : matrixReg m (writeDout v s) = matrixReg m s := rfl

/-! `writeH` -/

@[simp] theorem writeH_mregs (x : BitVec 21) : (writeH x s).mregs = s.mregs := rfl
@[simp] theorem writeH_modReg (x : BitVec 21) : (writeH x s).modReg = s.modReg := rfl
@[simp] theorem writeH_din (x : BitVec 21) : (writeH x s).din = s.din := rfl
@[simp] theorem writeH_dout (x : BitVec 21) : (writeH x s).dout = s.dout := rfl
@[simp] theorem writeH_hReg (x : BitVec 21) : (writeH x s).hReg = some x := rfl
@[simp] theorem writeH_cReg (x : BitVec 21) : (writeH x s).cReg = s.cReg := rfl
@[simp] theorem writeH_rReg (x : BitVec 21) : (writeH x s).rReg = s.rReg := rfl
@[simp] theorem writeH_vReg (x : BitVec 21) : (writeH x s).vReg = s.vReg := rfl
@[simp] theorem writeH_uReg (x : BitVec 21) : (writeH x s).uReg = s.uReg := rfl
@[simp] theorem writeH_sReg (x : BitVec 21) : (writeH x s).sReg = none := rfl
@[simp] theorem writeH_locReg (x : BitVec 21) : (writeH x s).locReg = none := rfl
@[simp] theorem writeH_fault (x : BitVec 21) : (writeH x s).fault = s.fault := rfl
@[simp] theorem writeH_fcode (x : BitVec 21) : (writeH x s).fcode = s.fcode := rfl
@[simp] theorem writeH_fcmd (x : BitVec 21) : (writeH x s).fcmd = s.fcmd := rfl
@[simp] theorem writeH_finfo (x : BitVec 21) : (writeH x s).finfo = s.finfo := rfl
@[simp] theorem writeH_accesses (x : BitVec 21) : (writeH x s).accesses = s.accesses := rfl
@[simp] theorem writeH_reads (x : BitVec 21) : (writeH x s).reads = s.reads := rfl
@[simp] theorem matrixReg_writeH (m : Nat) (x : BitVec 21) : matrixReg m (writeH x s) = matrixReg m s := rfl

/-! `writeC` -/

@[simp] theorem writeC_mregs (x : BitVec 28) : (writeC x s).mregs = s.mregs := rfl
@[simp] theorem writeC_modReg (x : BitVec 28) : (writeC x s).modReg = s.modReg := rfl
@[simp] theorem writeC_din (x : BitVec 28) : (writeC x s).din = s.din := rfl
@[simp] theorem writeC_dout (x : BitVec 28) : (writeC x s).dout = s.dout := rfl
@[simp] theorem writeC_hReg (x : BitVec 28) : (writeC x s).hReg = s.hReg := rfl
@[simp] theorem writeC_cReg (x : BitVec 28) : (writeC x s).cReg = some x := rfl
@[simp] theorem writeC_rReg (x : BitVec 28) : (writeC x s).rReg = s.rReg := rfl
@[simp] theorem writeC_vReg (x : BitVec 28) : (writeC x s).vReg = s.vReg := rfl
@[simp] theorem writeC_uReg (x : BitVec 28) : (writeC x s).uReg = s.uReg := rfl
@[simp] theorem writeC_sReg (x : BitVec 28) : (writeC x s).sReg = s.sReg := rfl
@[simp] theorem writeC_locReg (x : BitVec 28) : (writeC x s).locReg = s.locReg := rfl
@[simp] theorem writeC_fault (x : BitVec 28) : (writeC x s).fault = s.fault := rfl
@[simp] theorem writeC_fcode (x : BitVec 28) : (writeC x s).fcode = s.fcode := rfl
@[simp] theorem writeC_fcmd (x : BitVec 28) : (writeC x s).fcmd = s.fcmd := rfl
@[simp] theorem writeC_finfo (x : BitVec 28) : (writeC x s).finfo = s.finfo := rfl
@[simp] theorem writeC_accesses (x : BitVec 28) : (writeC x s).accesses = s.accesses := rfl
@[simp] theorem writeC_reads (x : BitVec 28) : (writeC x s).reads = s.reads := rfl
@[simp] theorem matrixReg_writeC (m : Nat) (x : BitVec 28) : matrixReg m (writeC x s) = matrixReg m s := rfl

/-! `writeR` -/

@[simp] theorem writeR_mregs (x : BitVec 28) : (writeR x s).mregs = s.mregs := rfl
@[simp] theorem writeR_modReg (x : BitVec 28) : (writeR x s).modReg = s.modReg := rfl
@[simp] theorem writeR_din (x : BitVec 28) : (writeR x s).din = s.din := rfl
@[simp] theorem writeR_dout (x : BitVec 28) : (writeR x s).dout = s.dout := rfl
@[simp] theorem writeR_hReg (x : BitVec 28) : (writeR x s).hReg = s.hReg := rfl
@[simp] theorem writeR_cReg (x : BitVec 28) : (writeR x s).cReg = s.cReg := rfl
@[simp] theorem writeR_rReg (x : BitVec 28) : (writeR x s).rReg = some x := rfl
@[simp] theorem writeR_vReg (x : BitVec 28) : (writeR x s).vReg = s.vReg := rfl
@[simp] theorem writeR_uReg (x : BitVec 28) : (writeR x s).uReg = s.uReg := rfl
@[simp] theorem writeR_sReg (x : BitVec 28) : (writeR x s).sReg = s.sReg := rfl
@[simp] theorem writeR_locReg (x : BitVec 28) : (writeR x s).locReg = s.locReg := rfl
@[simp] theorem writeR_fault (x : BitVec 28) : (writeR x s).fault = s.fault := rfl
@[simp] theorem writeR_fcode (x : BitVec 28) : (writeR x s).fcode = s.fcode := rfl
@[simp] theorem writeR_fcmd (x : BitVec 28) : (writeR x s).fcmd = s.fcmd := rfl
@[simp] theorem writeR_finfo (x : BitVec 28) : (writeR x s).finfo = s.finfo := rfl
@[simp] theorem writeR_accesses (x : BitVec 28) : (writeR x s).accesses = s.accesses := rfl
@[simp] theorem writeR_reads (x : BitVec 28) : (writeR x s).reads = s.reads := rfl
@[simp] theorem matrixReg_writeR (m : Nat) (x : BitVec 28) : matrixReg m (writeR x s) = matrixReg m s := rfl

/-! `writeV` -/

@[simp] theorem writeV_mregs (x : BitVec 4) : (writeV x s).mregs = s.mregs := rfl
@[simp] theorem writeV_modReg (x : BitVec 4) : (writeV x s).modReg = s.modReg := rfl
@[simp] theorem writeV_din (x : BitVec 4) : (writeV x s).din = s.din := rfl
@[simp] theorem writeV_dout (x : BitVec 4) : (writeV x s).dout = s.dout := rfl
@[simp] theorem writeV_hReg (x : BitVec 4) : (writeV x s).hReg = s.hReg := rfl
@[simp] theorem writeV_cReg (x : BitVec 4) : (writeV x s).cReg = s.cReg := rfl
@[simp] theorem writeV_rReg (x : BitVec 4) : (writeV x s).rReg = s.rReg := rfl
@[simp] theorem writeV_vReg (x : BitVec 4) : (writeV x s).vReg = some x := rfl
@[simp] theorem writeV_uReg (x : BitVec 4) : (writeV x s).uReg = s.uReg := rfl
@[simp] theorem writeV_sReg (x : BitVec 4) : (writeV x s).sReg = s.sReg := rfl
@[simp] theorem writeV_locReg (x : BitVec 4) : (writeV x s).locReg = s.locReg := rfl
@[simp] theorem writeV_fault (x : BitVec 4) : (writeV x s).fault = s.fault := rfl
@[simp] theorem writeV_fcode (x : BitVec 4) : (writeV x s).fcode = s.fcode := rfl
@[simp] theorem writeV_fcmd (x : BitVec 4) : (writeV x s).fcmd = s.fcmd := rfl
@[simp] theorem writeV_finfo (x : BitVec 4) : (writeV x s).finfo = s.finfo := rfl
@[simp] theorem writeV_accesses (x : BitVec 4) : (writeV x s).accesses = s.accesses := rfl
@[simp] theorem writeV_reads (x : BitVec 4) : (writeV x s).reads = s.reads := rfl
@[simp] theorem matrixReg_writeV (m : Nat) (x : BitVec 4) : matrixReg m (writeV x s) = matrixReg m s := rfl

/-! `writeU` -/

@[simp] theorem writeU_mregs (x : BitVec 7) : (writeU x s).mregs = s.mregs := rfl
@[simp] theorem writeU_modReg (x : BitVec 7) : (writeU x s).modReg = s.modReg := rfl
@[simp] theorem writeU_din (x : BitVec 7) : (writeU x s).din = s.din := rfl
@[simp] theorem writeU_dout (x : BitVec 7) : (writeU x s).dout = s.dout := rfl
@[simp] theorem writeU_hReg (x : BitVec 7) : (writeU x s).hReg = s.hReg := rfl
@[simp] theorem writeU_cReg (x : BitVec 7) : (writeU x s).cReg = s.cReg := rfl
@[simp] theorem writeU_rReg (x : BitVec 7) : (writeU x s).rReg = s.rReg := rfl
@[simp] theorem writeU_vReg (x : BitVec 7) : (writeU x s).vReg = s.vReg := rfl
@[simp] theorem writeU_uReg (x : BitVec 7) : (writeU x s).uReg = some x := rfl
@[simp] theorem writeU_sReg (x : BitVec 7) : (writeU x s).sReg = none := rfl
@[simp] theorem writeU_locReg (x : BitVec 7) : (writeU x s).locReg = none := rfl
@[simp] theorem writeU_fault (x : BitVec 7) : (writeU x s).fault = s.fault := rfl
@[simp] theorem writeU_fcode (x : BitVec 7) : (writeU x s).fcode = s.fcode := rfl
@[simp] theorem writeU_fcmd (x : BitVec 7) : (writeU x s).fcmd = s.fcmd := rfl
@[simp] theorem writeU_finfo (x : BitVec 7) : (writeU x s).finfo = s.finfo := rfl
@[simp] theorem writeU_accesses (x : BitVec 7) : (writeU x s).accesses = s.accesses := rfl
@[simp] theorem writeU_reads (x : BitVec 7) : (writeU x s).reads = s.reads := rfl
@[simp] theorem matrixReg_writeU (m : Nat) (x : BitVec 7) : matrixReg m (writeU x s) = matrixReg m s := rfl

/-! `writeS` -/

@[simp] theorem writeS_mregs (x : BitVec 3) : (writeS x s).mregs = s.mregs := rfl
@[simp] theorem writeS_modReg (x : BitVec 3) : (writeS x s).modReg = s.modReg := rfl
@[simp] theorem writeS_din (x : BitVec 3) : (writeS x s).din = s.din := rfl
@[simp] theorem writeS_dout (x : BitVec 3) : (writeS x s).dout = s.dout := rfl
@[simp] theorem writeS_hReg (x : BitVec 3) : (writeS x s).hReg = s.hReg := rfl
@[simp] theorem writeS_cReg (x : BitVec 3) : (writeS x s).cReg = s.cReg := rfl
@[simp] theorem writeS_rReg (x : BitVec 3) : (writeS x s).rReg = s.rReg := rfl
@[simp] theorem writeS_vReg (x : BitVec 3) : (writeS x s).vReg = s.vReg := rfl
@[simp] theorem writeS_uReg (x : BitVec 3) : (writeS x s).uReg = s.uReg := rfl
@[simp] theorem writeS_sReg (x : BitVec 3) : (writeS x s).sReg = some x := rfl
@[simp] theorem writeS_locReg (x : BitVec 3) : (writeS x s).locReg = none := rfl
@[simp] theorem writeS_fault (x : BitVec 3) : (writeS x s).fault = s.fault := rfl
@[simp] theorem writeS_fcode (x : BitVec 3) : (writeS x s).fcode = s.fcode := rfl
@[simp] theorem writeS_fcmd (x : BitVec 3) : (writeS x s).fcmd = s.fcmd := rfl
@[simp] theorem writeS_finfo (x : BitVec 3) : (writeS x s).finfo = s.finfo := rfl
@[simp] theorem writeS_accesses (x : BitVec 3) : (writeS x s).accesses = s.accesses := rfl
@[simp] theorem writeS_reads (x : BitVec 3) : (writeS x s).reads = s.reads := rfl
@[simp] theorem matrixReg_writeS (m : Nat) (x : BitVec 3) : matrixReg m (writeS x s) = matrixReg m s := rfl

/-! `writeLoc` -/

@[simp] theorem writeLoc_mregs (x : BitVec 4) : (writeLoc x s).mregs = s.mregs := rfl
@[simp] theorem writeLoc_modReg (x : BitVec 4) : (writeLoc x s).modReg = s.modReg := rfl
@[simp] theorem writeLoc_din (x : BitVec 4) : (writeLoc x s).din = s.din := rfl
@[simp] theorem writeLoc_dout (x : BitVec 4) : (writeLoc x s).dout = s.dout := rfl
@[simp] theorem writeLoc_hReg (x : BitVec 4) : (writeLoc x s).hReg = s.hReg := rfl
@[simp] theorem writeLoc_cReg (x : BitVec 4) : (writeLoc x s).cReg = s.cReg := rfl
@[simp] theorem writeLoc_rReg (x : BitVec 4) : (writeLoc x s).rReg = s.rReg := rfl
@[simp] theorem writeLoc_vReg (x : BitVec 4) : (writeLoc x s).vReg = s.vReg := rfl
@[simp] theorem writeLoc_uReg (x : BitVec 4) : (writeLoc x s).uReg = s.uReg := rfl
@[simp] theorem writeLoc_sReg (x : BitVec 4) : (writeLoc x s).sReg = s.sReg := rfl
@[simp] theorem writeLoc_locReg (x : BitVec 4) : (writeLoc x s).locReg = some x := rfl
@[simp] theorem writeLoc_fault (x : BitVec 4) : (writeLoc x s).fault = s.fault := rfl
@[simp] theorem writeLoc_fcode (x : BitVec 4) : (writeLoc x s).fcode = s.fcode := rfl
@[simp] theorem writeLoc_fcmd (x : BitVec 4) : (writeLoc x s).fcmd = s.fcmd := rfl
@[simp] theorem writeLoc_finfo (x : BitVec 4) : (writeLoc x s).finfo = s.finfo := rfl
@[simp] theorem writeLoc_accesses (x : BitVec 4) : (writeLoc x s).accesses = s.accesses := rfl
@[simp] theorem writeLoc_reads (x : BitVec 4) : (writeLoc x s).reads = s.reads := rfl
@[simp] theorem matrixReg_writeLoc (m : Nat) (x : BitVec 4) : matrixReg m (writeLoc x s) = matrixReg m s := rfl

/-! `returnRead` -/

@[simp] theorem returnRead_mregs (v : Word) : (returnRead v s).mregs = s.mregs := rfl
@[simp] theorem returnRead_modReg (v : Word) : (returnRead v s).modReg = s.modReg := rfl
@[simp] theorem returnRead_din (v : Word) : (returnRead v s).din = s.din := rfl
@[simp] theorem returnRead_dout (v : Word) : (returnRead v s).dout = s.dout := rfl
@[simp] theorem returnRead_hReg (v : Word) : (returnRead v s).hReg = s.hReg := rfl
@[simp] theorem returnRead_cReg (v : Word) : (returnRead v s).cReg = s.cReg := rfl
@[simp] theorem returnRead_rReg (v : Word) : (returnRead v s).rReg = s.rReg := rfl
@[simp] theorem returnRead_vReg (v : Word) : (returnRead v s).vReg = s.vReg := rfl
@[simp] theorem returnRead_uReg (v : Word) : (returnRead v s).uReg = s.uReg := rfl
@[simp] theorem returnRead_sReg (v : Word) : (returnRead v s).sReg = s.sReg := rfl
@[simp] theorem returnRead_locReg (v : Word) : (returnRead v s).locReg = s.locReg := rfl
@[simp] theorem returnRead_fault (v : Word) : (returnRead v s).fault = s.fault := rfl
@[simp] theorem returnRead_fcode (v : Word) : (returnRead v s).fcode = s.fcode := rfl
@[simp] theorem returnRead_fcmd (v : Word) : (returnRead v s).fcmd = s.fcmd := rfl
@[simp] theorem returnRead_finfo (v : Word) : (returnRead v s).finfo = s.finfo := rfl
@[simp] theorem returnRead_accesses (v : Word) : (returnRead v s).accesses = s.accesses := rfl
@[simp] theorem returnRead_reads (v : Word) : (returnRead v s).reads = s.reads ++ [v] := rfl
@[simp] theorem matrixReg_returnRead (m : Nat) (v : Word) : matrixReg m (returnRead v s) = matrixReg m s := rfl

/-! `takeFault` -/

@[simp] theorem takeFault_mregs (f : Raised) (w : Word) : (takeFault f w s).mregs = s.mregs := rfl
@[simp] theorem takeFault_modReg (f : Raised) (w : Word) : (takeFault f w s).modReg = s.modReg := rfl
@[simp] theorem takeFault_din (f : Raised) (w : Word) : (takeFault f w s).din = s.din := rfl
@[simp] theorem takeFault_dout (f : Raised) (w : Word) : (takeFault f w s).dout = s.dout := rfl
@[simp] theorem takeFault_hReg (f : Raised) (w : Word) : (takeFault f w s).hReg = s.hReg := rfl
@[simp] theorem takeFault_cReg (f : Raised) (w : Word) : (takeFault f w s).cReg = s.cReg := rfl
@[simp] theorem takeFault_rReg (f : Raised) (w : Word) : (takeFault f w s).rReg = s.rReg := rfl
@[simp] theorem takeFault_vReg (f : Raised) (w : Word) : (takeFault f w s).vReg = s.vReg := rfl
@[simp] theorem takeFault_uReg (f : Raised) (w : Word) : (takeFault f w s).uReg = s.uReg := rfl
@[simp] theorem takeFault_sReg (f : Raised) (w : Word) : (takeFault f w s).sReg = s.sReg := rfl
@[simp] theorem takeFault_locReg (f : Raised) (w : Word) : (takeFault f w s).locReg = s.locReg := rfl
@[simp] theorem takeFault_fault (f : Raised) (w : Word) : (takeFault f w s).fault = true := rfl
@[simp] theorem takeFault_fcode (f : Raised) (w : Word) : (takeFault f w s).fcode = causeCode f.cause := rfl
@[simp] theorem takeFault_fcmd (f : Raised) (w : Word) : (takeFault f w s).fcmd = w := rfl
@[simp] theorem takeFault_finfo (f : Raised) (w : Word) : (takeFault f w s).finfo = f.info := rfl
@[simp] theorem takeFault_accesses (f : Raised) (w : Word) : (takeFault f w s).accesses = s.accesses := rfl
@[simp] theorem takeFault_reads (f : Raised) (w : Word) : (takeFault f w s).reads = s.reads := rfl
@[simp] theorem matrixReg_takeFault (m : Nat) (f : Raised) (w : Word) : matrixReg m (takeFault f w s) = matrixReg m s := rfl

/-! `clearFault` -/

@[simp] theorem clearFault_mregs : (clearFault s).mregs = s.mregs := rfl
@[simp] theorem clearFault_modReg : (clearFault s).modReg = s.modReg := rfl
@[simp] theorem clearFault_din : (clearFault s).din = s.din := rfl
@[simp] theorem clearFault_dout : (clearFault s).dout = s.dout := rfl
@[simp] theorem clearFault_hReg : (clearFault s).hReg = s.hReg := rfl
@[simp] theorem clearFault_cReg : (clearFault s).cReg = s.cReg := rfl
@[simp] theorem clearFault_rReg : (clearFault s).rReg = s.rReg := rfl
@[simp] theorem clearFault_vReg : (clearFault s).vReg = s.vReg := rfl
@[simp] theorem clearFault_uReg : (clearFault s).uReg = s.uReg := rfl
@[simp] theorem clearFault_sReg : (clearFault s).sReg = s.sReg := rfl
@[simp] theorem clearFault_locReg : (clearFault s).locReg = s.locReg := rfl
@[simp] theorem clearFault_fault : (clearFault s).fault = false := rfl
@[simp] theorem clearFault_fcode : (clearFault s).fcode = 0#8 := rfl
@[simp] theorem clearFault_fcmd : (clearFault s).fcmd = 0#64 := rfl
@[simp] theorem clearFault_finfo : (clearFault s).finfo = 0#64 := rfl
@[simp] theorem clearFault_accesses : (clearFault s).accesses = s.accesses := rfl
@[simp] theorem clearFault_reads : (clearFault s).reads = s.reads := rfl
@[simp] theorem matrixReg_clearFault (m : Nat) : matrixReg m (clearFault s) = matrixReg m s := rfl

/-! Matrix registers -/

theorem matrixReg_writeMatrix (m k : Nat) (A : Mat) :
    matrixReg m (writeMatrix k A s) = if m = k ∧ k < 8 then some A else matrixReg m s := by
  by_cases h : m = k ∧ k < 8
  · obtain ⟨rfl, hk⟩ := h
    simp [matrixReg, hk]
  · by_cases hmk : k = m
    · subst hmk
      have : ¬ k < 8 := fun hk => h ⟨rfl, hk⟩
      simp [matrixReg, this]
    · simp [matrixReg, h, Vector.getElem?_setIfInBounds_ne hmk]

@[simp] theorem matrixReg_writeMatrix_self (k : Nat) (A : Mat) (hk : k < 8) :
    matrixReg k (writeMatrix k A s) = some A := by
  simp [matrixReg_writeMatrix, hk]

@[simp] theorem matrixReg_writeMatrix_of_ne {m k : Nat} (A : Mat) (h : m ≠ k) :
    matrixReg m (writeMatrix k A s) = matrixReg m s := by
  simp [matrixReg_writeMatrix, h]

/-- Only `M[0]` to `M[7]` exist. -/
theorem lt_of_matrixReg_eq_some {k : Nat} {A : Mat} (h : matrixReg k s = some A) : k < 8 := by
  by_contra hk
  simp [matrixReg, hk] at h

@[simp] theorem matrixReg_reset (k : Nat) : matrixReg k State.reset = none := by
  by_cases hk : k < 8 <;> simp [matrixReg, State.reset, hk]

@[simp] theorem writeMatrix_writeMatrix (k : Nat) (A B : Mat) :
    writeMatrix k B (writeMatrix k A s) = writeMatrix k B s := by
  simp only [writeMatrix]
  congr 1
  ext i hi
  simp only [Vector.getElem_setIfInBounds]
  split <;> rfl

end Sys2Proof.Machine
end

