-- ==== Sys2Proof/Laws/Ops.lean ====
section
/-! SUPPORT. What each shared operation can do: `conclude`, `require`, `written`, and the operand forms. -/

namespace Sys2Proof.Machine

@[simp] theorem conclude_ok (w : Word) (s t : State) : conclude w s (.ok t) = .next t := rfl

@[simp] theorem conclude_error (w : Word) (s : State) (f : Raised) :
    conclude w s (.error f) = .next (takeFault f w s) := rfl

/-- A command always answers a next state: its own, or fault entry. -/
theorem conclude_cases (w : Word) (s : State) (r : Except Raised State) :
    (∃ t, r = .ok t ∧ conclude w s r = .next t) ∨
      ∃ f, r = .error f ∧ conclude w s r = .next (takeFault f w s) := by
  cases r with
  | ok t => exact .inl ⟨t, rfl, rfl⟩
  | error f => exact .inr ⟨f, rfl, rfl⟩

@[simp] theorem except_bind_ok {α β : Type} (a : α) (f : α → Except Raised β) :
    ((Except.ok a : Except Raised α) >>= f) = f a := rfl

@[simp] theorem except_bind_error {α β : Type} (e : Raised) (f : α → Except Raised β) :
    ((Except.error e : Except Raised α) >>= f) = .error e := rfl

@[simp] theorem except_pure {α : Type} (a : α) : (pure a : Except Raised α) = .ok a := rfl

theorem bind_eq_ok {α β : Type} {x : Except Raised α} {f : α → Except Raised β} {b : β} :
    (x >>= f) = .ok b ↔ ∃ a, x = .ok a ∧ f a = .ok b := by
  cases x <;> simp

theorem bind_eq_error {α β : Type} {x : Except Raised α} {f : α → Except Raised β} {e : Raised} :
    (x >>= f) = .error e ↔ x = .error e ∨ ∃ a, x = .ok a ∧ f a = .error e := by
  cases x <;> simp

@[simp] theorem require_pos {c : Prop} [Decidable c] (h : c) (f : Cause) (info : Word) :
    require c f info = .ok () := by simp [require, h]

@[simp] theorem require_neg {c : Prop} [Decidable c] (h : ¬c) (f : Cause) (info : Word) :
    require c f info = .error ⟨f, info⟩ := by simp [require, h]

theorem require_eq_ok {c : Prop} [Decidable c] {f : Cause} {info : Word} :
    require c f info = .ok () ↔ c := by
  by_cases h : c <;> simp [h]

theorem require_eq_error {c : Prop} [Decidable c] {f : Cause} {info : Word} {e : Raised} :
    require c f info = .error e ↔ ¬c ∧ e = ⟨f, info⟩ := by
  by_cases h : c <;> simp [h, eq_comm]

@[simp] theorem written_some {α : Type} (v : α) : written (some v) = .ok v := rfl

@[simp] theorem written_none {α : Type} :
    written (none : Option α) = .error ⟨.unwritten, 0#64⟩ := rfl

theorem written_eq_ok {α : Type} {r : Option α} {v : α} : written r = .ok v ↔ r = some v := by
  cases r <;> simp

theorem written_eq_error {α : Type} {r : Option α} {e : Raised} :
    written r = .error e ↔ r = none ∧ e = ⟨.unwritten, 0#64⟩ := by
  cases r <;> simp [eq_comm]

theorem goodRegs_ok {l : List Nat} (h : ∀ k ∈ l, k < 8) : goodRegs l = .ok () :=
  require_pos h _ _

theorem goodRegs_bad {l : List Nat} {k : Nat} (hk : k ∈ l) (h : 8 ≤ k) :
    goodRegs l = .error ⟨.badRegister, 0#64⟩ :=
  require_neg (fun hl => absurd (hl k hk) (by simpa using h)) _ _

theorem sourceMatrix_some {k : Nat} {s : State} {A : Mat} (h : matrixReg k s = some A) :
    sourceMatrix k s = .ok A := by simp [sourceMatrix, h]

theorem sourceMatrix_none {k : Nat} {s : State} (h : matrixReg k s = none) :
    sourceMatrix k s = .error ⟨.unwritten, 0#64⟩ := by simp [sourceMatrix, h]

theorem modulus_some {s : State} {n : Word} (h : s.modReg = some n) :
    modulus s = .ok (n.toNat : Int) := by simp [modulus, h, zext64]

theorem modulus_none {s : State} (h : s.modReg = none) :
    modulus s = .error ⟨.unwritten, 0#64⟩ := by simp [modulus, h]

/-- No bit of DIN above the register's width is set exactly when DIN's value is below `2 ^ k`. -/
theorem din_shift_eq_zero_iff (v : Word) (k : Nat) : v >>> k = 0#64 ↔ v.toNat < 2 ^ k := by
  rw [← BitVec.toNat_inj, BitVec.toNat_ushiftRight, Nat.shiftRight_eq_div_pow]
  simp [Nat.div_eq_zero_iff]

theorem packedDin_ok {k : Nat} {s : State} (h : s.din.toNat < 2 ^ k) :
    packedDin k s = .ok (s.din.setWidth k) := by
  simp [packedDin, (din_shift_eq_zero_iff s.din k).2 h]

theorem packedDin_bad {k : Nat} {s : State} (h : 2 ^ k ≤ s.din.toNat) :
    packedDin k s = .error ⟨.operandRange, 0#64⟩ := by
  have : ¬ s.din >>> k = 0#64 := fun h0 => absurd ((din_shift_eq_zero_iff s.din k).1 h0) (by omega)
  simp [packedDin, this]

theorem getLsbD_bitVector_eq (n : Nat) (f : Nat → Bool) (i : Nat) :
    (bitVector n f).getLsbD i = (decide (i < n) && f i) := by
  induction n with
  | zero => simp [bitVector]
  | succ n ih =>
    simp only [bitVector, BitVec.getLsbD_cons, ih]
    by_cases h : i = n
    · subst h; simp
    · have : (i < n + 1) ↔ i < n := by omega
      simp [h, this]

theorem getLsbD_bitVector {n : Nat} (f : Nat → Bool) {i : Nat} (hi : i < n) :
    (bitVector n f).getLsbD i = f i := by
  rw [getLsbD_bitVector_eq, decide_eq_true hi, Bool.true_and]

/-- Two vectors of `n` bits are equal when their elements are. -/
theorem bitVector_eq_iff {n : Nat} {f : Nat → Bool} {x : BitVec n} :
    bitVector n f = x ↔ ∀ i < n, f i = x.getLsbD i := by
  constructor
  · rintro rfl i hi
    exact (getLsbD_bitVector f hi).symm
  · intro h
    apply BitVec.eq_of_getLsbD_eq
    intro i hi
    rw [getLsbD_bitVector f hi, h i hi]

/-- A value that fits 64 bits is stored exactly (R91). -/
theorem sext64_trunc64 {x : Int} (h : fits64 x = true) : sext64 (trunc64 x) = x := by
  simp only [fits64, decide_eq_true_eq] at h
  simp only [sext64, trunc64, BitVec.toInt_ofInt]
  rw [Int.bmod_def]
  split <;> omega

/-- A value in `[0, 2^63)` is stored exactly, read signed or unsigned (R91). -/
theorem trunc64_of_nonneg {x : Int} (h0 : 0 ≤ x) (h1 : x < 9223372036854775808) :
    sext64 (trunc64 x) = x ∧ ((trunc64 x).toNat : Int) = x := by
  refine ⟨sext64_trunc64 (by simp [fits64]; omega), ?_⟩
  simp only [trunc64, BitVec.toNat_ofInt]
  omega

/-- The modulus of R14 as an integer: `2 <= N <= 2^63 - 1`. -/
theorem modulus_range {n : Word} (h : 2 ≤ sext64 n) :
    2 ≤ (n.toNat : Int) ∧ (n.toNat : Int) < 9223372036854775808 := by
  simp only [sext64, BitVec.toInt_eq_toNat_cond] at h
  have := n.isLt
  split at h <;> omega

end Sys2Proof.Machine
end

