-- ==== Sys2Proof/Laws/Access.lean ====
section
/-! SUPPORT. What a step, a written command and a run of commands come to, case by case. -/

namespace Sys2Proof.Machine

theorem checkAccess_ok {off : Int} {width : Nat} {r : WindowReg} (h : checkAccess off width = .ok r) :
    width = 8 ∧ off = windowOffset r := by
  unfold checkAccess at h
  by_cases hw : width = 8
  · by_cases ha : off % 8 = 0
    · rw [if_neg (by simpa using hw), if_neg (by simpa using ha)] at h
      refine ⟨hw, ?_⟩
      cases hr : windowReg off with
      | none => simp [hr] at h
      | some q =>
        simp only [hr, Except.ok.injEq] at h
        subst h
        unfold windowReg at hr
        repeat' split at hr
        all_goals first
          | (cases hr; done)
          | (cases hr; assumption)
    · rw [if_neg (by simpa using hw), if_pos (by simpa using ha)] at h
      cases h
  · rw [if_pos hw] at h
    cases h

theorem checkAccess_windowOffset (r : WindowReg) : checkAccess (windowOffset r) 8 = .ok r := by
  cases r <;> rfl

/-- A step whose access is a write to CMD executes the value written. -/
theorem step_write_cmd {s : State} {w : Word} {rest : List HostAccess}
    (h : s.accesses = .write 0x00 8 w :: rest) :
    step s = executeCommand w { s with accesses := rest } := by
  simp [step, serveNext, h, serve, hostWrite, checkAccess, windowReg]

theorem executeCommand_legal {s : State} {w : Word} {i : Instr} (hf : s.fault = false)
    (hw : decode w = .ok i) : executeCommand w s = exec i s := by
  simp [executeCommand, hf, hw]

theorem executeCommand_illegal {s : State} {w : Word} {e : DecodeError} (hf : s.fault = false)
    (hw : decode w = .error e) :
    executeCommand w s = .next (takeFault ⟨.illegalCommand, 0#64⟩ w s) := by
  simp [executeCommand, hf, hw]

theorem executeCommand_dropped {s : State} {w : Word} (hf : s.fault = true)
    (hw : w ≠ 0x0000000001000000#64) : executeCommand w s = .next s := by
  simp [executeCommand, hf, hw]

theorem runCommands_cons {i : Instr} {rest : List Instr} {s t : State} (hf : s.fault = false)
    (hw : decode (encode i) = .ok i) (h : exec i s = .next t) :
    runCommands (i :: rest) s = runCommands rest t := by
  simp [runCommands, executeCommand_legal hf hw, h]

theorem runSteps_succ {n : Nat} {s t : State} :
    runSteps (n + 1) s = .next t ↔ ∃ m, step s = .next m ∧ runSteps n m = .next t := by
  rw [runSteps]
  cases step s <;> simp

end Sys2Proof.Machine
end

