-- ==== Sys2Proof/Laws/Decode.lean ====
section
/-! SUPPORT. The fields of an encoded command word, and when a row of the opcode map accepts it. -/

namespace Sys2Proof

section Fields

variable (op : BitVec 8) (rd ra rb i j z : BitVec 4)

/-- The seven fields of a command word, read back (R42). -/
theorem fieldsOf_append : fieldsOf (op ++ rd ++ ra ++ rb ++ i ++ j ++ z) =
    ⟨op.toNat, rd.toNat, ra.toNat, rb.toNat, i.toNat, j.toNat, z.toNat⟩ := by
  have hz : (op ++ rd ++ ra ++ rb ++ i ++ j ++ z).extractLsb' 0 4 = z := BitVec.extractLsb'_append_eq_right
  have drop1 : ∀ s l, (op ++ rd ++ ra ++ rb ++ i ++ j ++ z).extractLsb' (s + 4) l
      = (op ++ rd ++ ra ++ rb ++ i ++ j).extractLsb' s l := fun s l => by
    rw [BitVec.extractLsb'_append_eq_of_le (Nat.le_add_left 4 s), Nat.add_sub_cancel]
  have drop2 : ∀ s l, (op ++ rd ++ ra ++ rb ++ i ++ j).extractLsb' (s + 4) l
      = (op ++ rd ++ ra ++ rb ++ i).extractLsb' s l := fun s l => by
    rw [BitVec.extractLsb'_append_eq_of_le (Nat.le_add_left 4 s), Nat.add_sub_cancel]
  have drop3 : ∀ s l, (op ++ rd ++ ra ++ rb ++ i).extractLsb' (s + 4) l
      = (op ++ rd ++ ra ++ rb).extractLsb' s l := fun s l => by
    rw [BitVec.extractLsb'_append_eq_of_le (Nat.le_add_left 4 s), Nat.add_sub_cancel]
  have drop4 : ∀ s l, (op ++ rd ++ ra ++ rb).extractLsb' (s + 4) l
      = (op ++ rd ++ ra).extractLsb' s l := fun s l => by
    rw [BitVec.extractLsb'_append_eq_of_le (Nat.le_add_left 4 s), Nat.add_sub_cancel]
  have drop5 : ∀ s l, (op ++ rd ++ ra).extractLsb' (s + 4) l = (op ++ rd).extractLsb' s l := fun s l => by
    rw [BitVec.extractLsb'_append_eq_of_le (Nat.le_add_left 4 s), Nat.add_sub_cancel]
  have hop := ((drop1 20 8).trans (drop2 16 8)).trans ((drop3 12 8).trans ((drop4 8 8).trans
    ((drop5 4 8).trans (BitVec.extractLsb'_append_eq_left (a := op) (b := rd)))))
  have hrd := ((drop1 16 4).trans (drop2 12 4)).trans ((drop3 8 4).trans ((drop4 4 4).trans
    ((drop5 0 4).trans (BitVec.extractLsb'_append_eq_right (a := op) (b := rd)))))
  have hra := ((drop1 12 4).trans (drop2 8 4)).trans ((drop3 4 4).trans ((drop4 0 4).trans
    (BitVec.extractLsb'_append_eq_right (a := op ++ rd) (b := ra))))
  have hrb := ((drop1 8 4).trans (drop2 4 4)).trans ((drop3 0 4).trans
    (BitVec.extractLsb'_append_eq_right (a := op ++ rd ++ ra) (b := rb)))
  have hi := ((drop1 4 4).trans (drop2 0 4)).trans
    (BitVec.extractLsb'_append_eq_right (a := op ++ rd ++ ra ++ rb) (b := i))
  have hj := (drop1 0 4).trans (BitVec.extractLsb'_append_eq_right (a := op ++ rd ++ ra ++ rb ++ i) (b := j))
  simp only [fieldsOf]
  congr 1 <;> congr 1

/-- A row whose mask and match are given field by field accepts the words whose fields agree (R43). -/
theorem Row.accepts_append {r : Row} {mop pop : BitVec 8} {mrd mra mrb mi mj mz prd pra prb pi pj pz : BitVec 4}
    (hm : r.mask = mop ++ mrd ++ mra ++ mrb ++ mi ++ mj ++ mz)
    (hp : r.pattern = pop ++ prd ++ pra ++ prb ++ pi ++ pj ++ pz)
    (h : op &&& mop = pop ∧ rd &&& mrd = prd ∧ ra &&& mra = pra ∧ rb &&& mrb = prb ∧ i &&& mi = pi ∧
      j &&& mj = pj ∧ z &&& mz = pz) :
    r.accepts (op ++ rd ++ ra ++ rb ++ i ++ j ++ z) = true := by
  obtain ⟨rfl, rfl, rfl, rfl, rfl, rfl, rfl⟩ := h
  rw [Row.accepts, hm, hp, beq_iff_eq]
  exact (BitVec.and_append).trans (congrArg (· ++ _) ((BitVec.and_append).trans (congrArg (· ++ _)
    ((BitVec.and_append).trans (congrArg (· ++ _) ((BitVec.and_append).trans (congrArg (· ++ _)
    ((BitVec.and_append).trans (congrArg (· ++ _) (BitVec.and_append))))))))))

end Fields

/-- Bits 31:0 of an encoded command (R42). -/
theorem command_low (op : BitVec 8) (rd ra rb i j : Nat) : (command op rd ra rb i j).extractLsb' 0 32 =
    op ++ BitVec.ofNat 4 rd ++ BitVec.ofNat 4 ra ++ BitVec.ofNat 4 rb ++ BitVec.ofNat 4 i
      ++ BitVec.ofNat 4 j ++ 0#4 :=
  BitVec.extractLsb'_append_eq_right

/-- Bits 63:32 of an encoded command are 0 (R42). -/
theorem command_high (op : BitVec 8) (rd ra rb i j : Nat) :
    (command op rd ra rb i j).extractLsb' 32 32 = 0#32 :=
  BitVec.extractLsb'_append_eq_left

/-- An operand that fits its field is read back from it. -/
theorem toNat_field {n : Nat} (h : fitsField n = true) : (BitVec.ofNat 4 n).toNat = n := by
  simp only [fitsField, decide_eq_true_eq] at h
  simp [Nat.mod_eq_of_lt h]

end Sys2Proof
end

