-- ==== Sys2Proof/Laws/Gf2.lean ====
section
/-! SUPPORT. What the GF(2) operations compute, bit by bit. -/

namespace Sys2Proof.Machine

/-- The GF(2) sum is the parity of the number of ones (R9). -/
theorem toNat_gfSum (n : Nat) (f : Nat → Bool) :
    (gfSum n f).toNat = (∑ k ∈ Finset.range n, (f k).toNat) % 2 := by
  induction n with
  | zero => rfl
  | succ n ih =>
    rw [Finset.sum_range_succ, Nat.add_mod, ← ih, gfSum]
    cases gfSum n f <;> cases f n <;> rfl

/-- The product of bits modulo 2 is their conjunction (R9). -/
theorem toNat_and_eq_mul (a b : Bool) : (a && b).toNat = a.toNat * b.toNat := by
  cases a <;> cases b <;> rfl

theorem gfSum_congr {n : Nat} {f g : Nat → Bool} (h : ∀ k < n, f k = g k) : gfSum n f = gfSum n g := by
  induction n with
  | zero => rfl
  | succ n ih => rw [gfSum, gfSum, ih fun k hk => h k (by omega), h n (by omega)]

theorem gfSum_xor (n : Nat) (f g : Nat → Bool) :
    (gfSum n fun k => (f k).xor (g k)) = (gfSum n f).xor (gfSum n g) := by
  induction n with
  | zero => rfl
  | succ n ih => simp only [gfSum, ih]; cases gfSum n f <;> cases gfSum n g <;> cases f n <;> cases g n <;> rfl

@[simp] theorem gfSum_false (n : Nat) : (gfSum n fun _ => false) = false := by
  induction n with
  | zero => rfl
  | succ n ih => simp [gfSum, ih]

theorem and_gfSum (n : Nat) (b : Bool) (f : Nat → Bool) :
    (b && gfSum n f) = gfSum n fun k => b && f k := by
  cases b <;> simp

/-- Sums over two indices may be taken in either order. -/
theorem gfSum_comm (m n : Nat) (f : Nat → Nat → Bool) :
    (gfSum m fun a => gfSum n fun b => f a b) = gfSum n fun b => gfSum m fun a => f a b := by
  induction m with
  | zero => simp [gfSum]
  | succ m ih => simp only [gfSum, ih, gfSum_xor]

/-- The elements of the three stage functions. -/
theorem getLsbD_encodeBlock (C : BitVec 28) (v : BitVec 4) {k : Nat} (hk : k < 7) :
    (encodeBlock C v).getLsbD k = gfSum 4 fun r => element C r k && v.getLsbD r := by
  rw [encodeBlock, getLsbD_bitVector _ hk]

theorem getLsbD_syndrome (H : BitVec 21) (u : BitVec 7) {r : Nat} (hr : r < 3) :
    (syndrome H u).getLsbD r = gfSum 7 fun k => element H r k && u.getLsbD k := by
  rw [syndrome, getLsbD_bitVector _ hr]

theorem getLsbD_decodeBlock (R : BitVec 28) (u : BitVec 7) {r : Nat} (hr : r < 4) :
    (decodeBlock R u).getLsbD r = gfSum 7 fun k => element R r k && u.getLsbD k := by
  rw [decodeBlock, getLsbD_bitVector _ hr]

theorem getLsbD_flipBit (p : Nat) (u : BitVec 7) {k : Nat} (hk : k < 7) :
    (flipBit p u).getLsbD k = if k = p then !u.getLsbD k else u.getLsbD k := by
  rw [flipBit, getLsbD_bitVector _ hk]

/-- With element `r` of the syndrome in bit `r`, the number read in reverse order is the register's value
(R67). -/
theorem syndromeNumber_eq_toNat (x : BitVec 3) : syndromeNumber x = x.toNat := by
  revert x; decide

end Sys2Proof.Machine
end

