-- ==== Sys2Proof/Laws/IntMatrix.lean ====
section
/-! SUPPORT. What the integer-matrix operations compute. -/

namespace Sys2Proof.Machine

@[simp] theorem buildMatrix_rows (r c : Nat) (f : Nat → Nat → Word) : (buildMatrix r c f).rows = r := rfl

@[simp] theorem buildMatrix_cols (r c : Nat) (f : Nat → Nat → Word) : (buildMatrix r c f).cols = c := rfl

theorem buildMatrix_full (r c : Nat) (f : Nat → Nat → Word) : (buildMatrix r c f).full := by
  refine ⟨by simp [buildMatrix], ?_⟩
  intro row hrow
  simp only [buildMatrix, List.mem_map] at hrow
  obtain ⟨a, -, rfl⟩ := hrow
  simp

theorem entry_buildMatrix {r c a b : Nat} (f : Nat → Nat → Word) (ha : a < r) (hb : b < c) :
    entry (buildMatrix r c f) a b = f a b := by
  simp [entry, buildMatrix, ha, hb]

/-- A built matrix with a legal shape is what a matrix register may hold (R12). -/
theorem buildMatrix_wf {r c : Nat} (f : Nat → Nat → Word) (hr : 1 ≤ r ∧ r ≤ 8) (hc : 1 ≤ c ∧ c ≤ 8) :
    (buildMatrix r c f).wf :=
  ⟨hr.1, hr.2, hc.1, hc.2, buildMatrix_full r c f⟩

/-- Two full matrices of one shape are equal when their entries are. -/
theorem full_ext {A B : Mat} (hA : A.full) (hB : B.full) (hr : A.rows = B.rows) (hc : A.cols = B.cols)
    (h : ∀ a < A.rows, ∀ b < A.cols, entry A a b = entry B a b) : A = B := by
  obtain ⟨ra, ca, ea⟩ := A
  obtain ⟨rb, cb, eb⟩ := B
  obtain rfl : ra = rb := hr
  obtain rfl : ca = cb := hc
  obtain ⟨hla, hwa⟩ := hA
  obtain ⟨hlb, hwb⟩ := hB
  simp only at hla hwa hlb hwb h
  congr 1
  apply List.ext_getElem (by omega)
  intro a ha ha'
  have h1 := hwa _ (List.getElem_mem ha)
  have h2 := hwb _ (List.getElem_mem ha')
  apply List.ext_getElem (by omega)
  intro b hb hb'
  simpa [entry, ha, ha', hb, hb'] using h a (by omega) b (by omega)

theorem sumTo_eq_sum (n : Nat) (f : Nat → Int) : sumTo n f = ∑ t ∈ Finset.range n, f t := by
  induction n with
  | zero => rfl
  | succ n ih => rw [sumTo, ih, Finset.sum_range_succ]

theorem allEntries_iff {r c : Nat} {p : Nat → Nat → Bool} :
    allEntries r c p = true ↔ ∀ a < r, ∀ b < c, p a b = true := by
  simp [allEntries, List.all_eq_true]

theorem fits64_iff {x : Int} : fits64 x = true ↔ -2 ^ 63 ≤ x ∧ x ≤ 2 ^ 63 - 1 := by
  simp [fits64]

/-- Removing a row and a column leaves what the successive-above index keeps. -/
theorem skipIndex_eq (n : Nat) (p : Fin (n + 1)) (i : Fin n) :
    skipIndex p i = (p.succAbove i : Nat) := by
  simp only [skipIndex, Fin.succAbove, Fin.lt_def, Fin.val_castSucc]
  split <;> simp

theorem altSign_eq (n : Nat) : altSign n = (-1) ^ n := by
  simp only [altSign]
  split
  · rw [Even.neg_one_pow (Nat.even_iff.2 ‹_›)]
  · rw [Odd.neg_one_pow (Nat.odd_iff.2 (by omega))]

end Sys2Proof.Machine
end

