-- ==== Sys2Proof/Laws/Invariant.lean ====
section
/-! SUPPORT. Each operation that writes registers keeps the invariant `Inv`, under what its command checks. -/

namespace Sys2Proof.Machine

theorem inv_takeFault {s : State} (h : Inv s) (f : Raised) (w : Word)
    (hi : f.cause ≠ .singularMatrix → f.info = 0#64) : Inv (takeFault f w s) :=
  ⟨h.1, h.2, h.3, h.4, by simp, fun _ => ⟨f.cause, rfl, hi⟩⟩

theorem inv_clearFault {s : State} (h : Inv s) : Inv (clearFault s) :=
  ⟨h.1, h.2, h.3, h.4, by simp, by simp⟩

theorem inv_writeMatrix {s : State} (h : Inv s) (k : Nat) {A : Mat} (hA : A.wf) :
    Inv (writeMatrix k A s) := by
  refine ⟨?_, h.2, h.3, h.4, h.5, h.6⟩
  intro m B hB
  rw [matrixReg_writeMatrix] at hB
  split at hB
  · cases hB
    exact hA
  · exact h.1 m B hB

theorem inv_writeMod {s : State} (h : Inv s) {v : Word} (hv : 2 ≤ sext64 v) : Inv (writeMod v s) :=
  ⟨h.1, by simpa using hv, h.3, h.4, h.5, h.6⟩

theorem inv_writeDin {s : State} (h : Inv s) (v : Word) : Inv (writeDin v s) :=
  ⟨h.1, h.2, h.3, h.4, h.5, h.6⟩

theorem inv_writeDout {s : State} (h : Inv s) (v : Word) : Inv (writeDout v s) :=
  ⟨h.1, h.2, h.3, h.4, h.5, h.6⟩

theorem inv_returnRead {s : State} (h : Inv s) (v : Word) : Inv (returnRead v s) :=
  ⟨h.1, h.2, h.3, h.4, h.5, h.6⟩

theorem inv_accesses {s : State} (h : Inv s) (l : List HostAccess) : Inv { s with accesses := l } :=
  ⟨h.1, h.2, h.3, h.4, h.5, h.6⟩

theorem inv_writeC {s : State} (h : Inv s) (x : BitVec 28) : Inv (writeC x s) :=
  ⟨h.1, h.2, h.3, h.4, h.5, h.6⟩

theorem inv_writeR {s : State} (h : Inv s) (x : BitVec 28) : Inv (writeR x s) :=
  ⟨h.1, h.2, h.3, h.4, h.5, h.6⟩

theorem inv_writeV {s : State} (h : Inv s) (x : BitVec 4) : Inv (writeV x s) :=
  ⟨h.1, h.2, h.3, h.4, h.5, h.6⟩

/-- A write of H makes S and LOC invalid (R21). -/
theorem inv_writeH {s : State} (h : Inv s) (x : BitVec 21) : Inv (writeH x s) :=
  ⟨h.1, h.2, by simp, by simp, h.5, h.6⟩

/-- A write of U makes S and LOC invalid (R21). -/
theorem inv_writeU {s : State} (h : Inv s) (x : BitVec 7) : Inv (writeU x s) :=
  ⟨h.1, h.2, by simp, by simp, h.5, h.6⟩

theorem inv_writeS {s : State} (h : Inv s) {H : BitVec 21} {u : BitVec 7} (hH : s.hReg = some H)
    (hu : s.uReg = some u) : Inv (writeS (syndrome H u) s) :=
  ⟨h.1, h.2, by simp [hH, hu], by simp, h.5, h.6⟩

theorem inv_writeLoc {s : State} (h : Inv s) {x : BitVec 3} (hx : s.sReg = some x) :
    Inv (writeLoc (locate x) s) :=
  ⟨h.1, h.2, h.3, by simp [hx], h.5, h.6⟩

end Sys2Proof.Machine
end

