-- ==== Sys2Proof/Laws/PerInstr.lean ====
section
/-! SUPPORT. The family of lemmas stated per instruction: the encoding of a well-formed command is a word of
the command's own row of the opcode map, and the row reads every operand back (spec rules R42 to R45). -/

namespace Sys2Proof.Laws

/-- The CMD value of a well-formed command has bits 63:32 zero, some row of the opcode map accepts bits
31:0, and that row makes the command from the fields. -/
def CommandWord.Statement (i : Instr) : Prop :=
  i.wellFormed = true → (encode i).extractLsb' 32 32 = 0#32 ∧
    ∃ (k : Nat) (r : Row), opcodeTable[k]? = some r ∧ r.accepts ((encode i).extractLsb' 0 32) = true ∧
      r.build (fieldsOf ((encode i).extractLsb' 0 32)) = i

/-- The shared shape of the proofs: the row at place `k`, whose mask and match are given field by field. -/
theorem CommandWord.ofRow {i : Instr} {k : Nat} {r : Row} {op : BitVec 8} {rd ra rb f g : Nat}
    {mrd mra mrb mi mj : BitVec 4} (hr : opcodeTable[k]? = some r) (he : encode i = command op rd ra rb f g)
    (hm : r.mask = 0xFF#8 ++ mrd ++ mra ++ mrb ++ mi ++ mj ++ 0xF#4)
    (hp : r.pattern = op ++ 0#4 ++ 0#4 ++ 0#4 ++ 0#4 ++ 0#4 ++ 0#4)
    (h : BitVec.ofNat 4 rd &&& mrd = 0#4 ∧ BitVec.ofNat 4 ra &&& mra = 0#4 ∧ BitVec.ofNat 4 rb &&& mrb = 0#4 ∧
      BitVec.ofNat 4 f &&& mi = 0#4 ∧ BitVec.ofNat 4 g &&& mj = 0#4)
    (hb : i.wellFormed = true → r.build ⟨op.toNat, (BitVec.ofNat 4 rd).toNat, (BitVec.ofNat 4 ra).toNat,
      (BitVec.ofNat 4 rb).toNat, (BitVec.ofNat 4 f).toNat, (BitVec.ofNat 4 g).toNat, 0⟩ = i) :
    CommandWord.Statement i := by
  have hop : op &&& 0xFF#8 = op := BitVec.and_allOnes (x := op)
  intro hw
  refine ⟨he ▸ command_high .., k, r, hr, ?_, ?_⟩
  · rw [he, command_low]
    exact Row.accepts_append _ _ _ _ _ _ _ hm hp ⟨hop, h.1, h.2.1, h.2.2.1, h.2.2.2.1, h.2.2.2.2, rfl⟩
  · rw [he, command_low, fieldsOf_append]
    exact hb hw

theorem CommandWord.nop : CommandWord.Statement (.nop) :=
  CommandWord.ofRow (k := 0) (mrd := 15#4) (mra := 15#4) (mrb := 15#4) (mi := 15#4) (mj := 15#4)
    rfl rfl rfl rfl (by simp) (fun _ => rfl)

theorem CommandWord.clrf : CommandWord.Statement (.clrf) :=
  CommandWord.ofRow (k := 1) (mrd := 15#4) (mra := 15#4) (mrb := 15#4) (mi := 15#4) (mj := 15#4)
    rfl rfl rfl rfl (by simp) (fun _ => rfl)

theorem CommandWord.setmod : CommandWord.Statement (.setmod) :=
  CommandWord.ofRow (k := 2) (mrd := 15#4) (mra := 15#4) (mrb := 15#4) (mi := 15#4) (mj := 15#4)
    rfl rfl rfl rfl (by simp) (fun _ => rfl)

theorem CommandWord.getmod : CommandWord.Statement (.getmod) :=
  CommandWord.ofRow (k := 3) (mrd := 15#4) (mra := 15#4) (mrb := 15#4) (mi := 15#4) (mj := 15#4)
    rfl rfl rfl rfl (by simp) (fun _ => rfl)

theorem CommandWord.hldh : CommandWord.Statement (.hldh) :=
  CommandWord.ofRow (k := 4) (mrd := 15#4) (mra := 15#4) (mrb := 15#4) (mi := 15#4) (mj := 15#4)
    rfl rfl rfl rfl (by simp) (fun _ => rfl)

theorem CommandWord.hldc : CommandWord.Statement (.hldc) :=
  CommandWord.ofRow (k := 5) (mrd := 15#4) (mra := 15#4) (mrb := 15#4) (mi := 15#4) (mj := 15#4)
    rfl rfl rfl rfl (by simp) (fun _ => rfl)

theorem CommandWord.hldr : CommandWord.Statement (.hldr) :=
  CommandWord.ofRow (k := 6) (mrd := 15#4) (mra := 15#4) (mrb := 15#4) (mi := 15#4) (mj := 15#4)
    rfl rfl rfl rfl (by simp) (fun _ => rfl)

theorem CommandWord.hldv : CommandWord.Statement (.hldv) :=
  CommandWord.ofRow (k := 7) (mrd := 15#4) (mra := 15#4) (mrb := 15#4) (mi := 15#4) (mj := 15#4)
    rfl rfl rfl rfl (by simp) (fun _ => rfl)

theorem CommandWord.hldu : CommandWord.Statement (.hldu) :=
  CommandWord.ofRow (k := 8) (mrd := 15#4) (mra := 15#4) (mrb := 15#4) (mi := 15#4) (mj := 15#4)
    rfl rfl rfl rfl (by simp) (fun _ => rfl)

theorem CommandWord.hrd (i : Nat) : CommandWord.Statement (.hrd i) :=
  CommandWord.ofRow (k := 9) (mrd := 15#4) (mra := 15#4) (mrb := 15#4) (mi := 0#4) (mj := 15#4)
    rfl rfl rfl rfl (by simp) (fun h => by simp only [toNat_field h])

theorem CommandWord.hflip (j : Nat) : CommandWord.Statement (.hflip j) :=
  CommandWord.ofRow (k := 10) (mrd := 15#4) (mra := 15#4) (mrb := 15#4) (mi := 15#4) (mj := 0#4)
    rfl rfl rfl rfl (by simp) (fun h => by simp only [toNat_field h])

theorem CommandWord.henc : CommandWord.Statement (.henc) :=
  CommandWord.ofRow (k := 11) (mrd := 15#4) (mra := 15#4) (mrb := 15#4) (mi := 15#4) (mj := 15#4)
    rfl rfl rfl rfl (by simp) (fun _ => rfl)

theorem CommandWord.hsyn : CommandWord.Statement (.hsyn) :=
  CommandWord.ofRow (k := 12) (mrd := 15#4) (mra := 15#4) (mrb := 15#4) (mi := 15#4) (mj := 15#4)
    rfl rfl rfl rfl (by simp) (fun _ => rfl)

theorem CommandWord.hloc : CommandWord.Statement (.hloc) :=
  CommandWord.ofRow (k := 13) (mrd := 15#4) (mra := 15#4) (mrb := 15#4) (mi := 15#4) (mj := 15#4)
    rfl rfl rfl rfl (by simp) (fun _ => rfl)

theorem CommandWord.hcor : CommandWord.Statement (.hcor) :=
  CommandWord.ofRow (k := 14) (mrd := 15#4) (mra := 15#4) (mrb := 15#4) (mi := 15#4) (mj := 15#4)
    rfl rfl rfl rfl (by simp) (fun _ => rfl)

theorem CommandWord.hprj : CommandWord.Statement (.hprj) :=
  CommandWord.ofRow (k := 15) (mrd := 15#4) (mra := 15#4) (mrb := 15#4) (mi := 15#4) (mj := 15#4)
    rfl rfl rfl rfl (by simp) (fun _ => rfl)

theorem CommandWord.mshape (rd i j : Nat) : CommandWord.Statement (.mshape rd i j) :=
  CommandWord.ofRow (k := 16) (mrd := 0#4) (mra := 15#4) (mrb := 15#4) (mi := 0#4) (mj := 0#4)
    rfl rfl rfl rfl (by simp) (fun h => by
      simp only [Instr.wellFormed, Bool.and_eq_true] at h
      simp only [toNat_field h.1.1, toNat_field h.1.2, toNat_field h.2])

theorem CommandWord.mst (rd i j : Nat) : CommandWord.Statement (.mst rd i j) :=
  CommandWord.ofRow (k := 17) (mrd := 0#4) (mra := 15#4) (mrb := 15#4) (mi := 0#4) (mj := 0#4)
    rfl rfl rfl rfl (by simp) (fun h => by
      simp only [Instr.wellFormed, Bool.and_eq_true] at h
      simp only [toNat_field h.1.1, toNat_field h.1.2, toNat_field h.2])

theorem CommandWord.mld (ra i j : Nat) : CommandWord.Statement (.mld ra i j) :=
  CommandWord.ofRow (k := 18) (mrd := 15#4) (mra := 0#4) (mrb := 15#4) (mi := 0#4) (mj := 0#4)
    rfl rfl rfl rfl (by simp) (fun h => by
      simp only [Instr.wellFormed, Bool.and_eq_true] at h
      simp only [toNat_field h.1.1, toNat_field h.1.2, toNat_field h.2])

theorem CommandWord.mdim (ra : Nat) : CommandWord.Statement (.mdim ra) :=
  CommandWord.ofRow (k := 19) (mrd := 15#4) (mra := 0#4) (mrb := 15#4) (mi := 15#4) (mj := 15#4)
    rfl rfl rfl rfl (by simp) (fun h => by simp only [toNat_field h])

theorem CommandWord.mmul (rd ra rb : Nat) : CommandWord.Statement (.mmul rd ra rb) :=
  CommandWord.ofRow (k := 20) (mrd := 0#4) (mra := 0#4) (mrb := 0#4) (mi := 15#4) (mj := 15#4)
    rfl rfl rfl rfl (by simp) (fun h => by
      simp only [Instr.wellFormed, Bool.and_eq_true] at h
      simp only [toNat_field h.1.1, toNat_field h.1.2, toNat_field h.2])

theorem CommandWord.mred (rd ra : Nat) : CommandWord.Statement (.mred rd ra) :=
  CommandWord.ofRow (k := 21) (mrd := 0#4) (mra := 0#4) (mrb := 15#4) (mi := 15#4) (mj := 15#4)
    rfl rfl rfl rfl (by simp) (fun h => by
      simp only [Instr.wellFormed, Bool.and_eq_true] at h
      simp only [toNat_field h.1, toNat_field h.2])

theorem CommandWord.mtrn (rd ra : Nat) : CommandWord.Statement (.mtrn rd ra) :=
  CommandWord.ofRow (k := 22) (mrd := 0#4) (mra := 0#4) (mrb := 15#4) (mi := 15#4) (mj := 15#4)
    rfl rfl rfl rfl (by simp) (fun h => by
      simp only [Instr.wellFormed, Bool.and_eq_true] at h
      simp only [toNat_field h.1, toNat_field h.2])

theorem CommandWord.mdet (ra : Nat) : CommandWord.Statement (.mdet ra) :=
  CommandWord.ofRow (k := 23) (mrd := 15#4) (mra := 0#4) (mrb := 15#4) (mi := 15#4) (mj := 15#4)
    rfl rfl rfl rfl (by simp) (fun h => by simp only [toNat_field h])

theorem CommandWord.minv (rd ra : Nat) : CommandWord.Statement (.minv rd ra) :=
  CommandWord.ofRow (k := 24) (mrd := 0#4) (mra := 0#4) (mrb := 15#4) (mi := 15#4) (mj := 15#4)
    rfl rfl rfl rfl (by simp) (fun h => by
      simp only [Instr.wellFormed, Bool.and_eq_true] at h
      simp only [toNat_field h.1, toNat_field h.2])

theorem CommandWord.mchk (ra : Nat) : CommandWord.Statement (.mchk ra) :=
  CommandWord.ofRow (k := 25) (mrd := 15#4) (mra := 0#4) (mrb := 15#4) (mi := 15#4) (mj := 15#4)
    rfl rfl rfl rfl (by simp) (fun h => by simp only [toNat_field h])

theorem CommandWord.mzt (ra : Nat) : CommandWord.Statement (.mzt ra) :=
  CommandWord.ofRow (k := 26) (mrd := 15#4) (mra := 0#4) (mrb := 15#4) (mi := 15#4) (mj := 15#4)
    rfl rfl rfl rfl (by simp) (fun h => by simp only [toNat_field h])

end Sys2Proof.Laws
end

