-- ==== Sys2Proof/Tests/Slice0.lean ====
section
/-! SUPPORT. Tests and witnesses. Every expected value of a test is the spec's: the encodings are rows E1 to
E30 and F1, F2 of 96_derived_vectors.md, the results are its vectors H1 to H12, M1 to M10, F1 to F5 and the
examples of the command rules. A witness shows a state and operands that meet an obligation's hypotheses. -/

namespace Sys2Proof.Tests

set_option Elab.async false

open Sys2Proof Sys2Proof.Machine

/-- The result is a next state that passes the test. -/
def passes (r : Result) (p : State → Bool) : Bool :=
  match r with
  | .next t => p t
  | .fault _ => false
  | .refused _ => false

theorem next_of_passes {r : Result} {p : State → Bool} (h : passes r p = true) :
    ∃ t, r = .next t ∧ p t = true := by
  cases r with
  | next t => exact ⟨t, rfl, h⟩
  | fault f => cases h
  | refused f => cases h

/-- A matrix from its rows. -/
def rowsOf (l : List (List Int)) : Mat where
  rows := l.length
  cols := (l.headD []).length
  e := l.map (·.map trunc64)

/-- `SETMODI n` done. -/
def withMod (n : Int) (s : State) : State := writeMod (trunc64 n) s

/-- Fault entry's four registers, as the vectors list them. -/
def faulted (code : BitVec 8) (cmd info : Word) (t : State) : Bool :=
  t.fault && t.fcode == code && t.fcmd == cmd && t.finfo == info

/-- Test configuration TC1 (R71) loaded; `U = 0x5D` with its syndrome and location (R67); MOD = 31 and the
matrices of vectors M6, M7 and of R82. -/
def sample : State :=
  { State.reset with
    hReg := some 0x1E3355#21, cReg := some 0x96A8C87#28, rReg := some 0x8080804#28, vReg := some 0xB#4,
    uReg := some 0x5D#7, sReg := some 4#3, locReg := some 0xB#4, modReg := some 31#64,
    mregs := #v[some (rowsOf [[11, 27], [20, 23]]), some (rowsOf [[11], [27]]),
      some (rowsOf [[2, 4], [1, 2]]), some (rowsOf [[1, 2, 3], [4, 5, 6]]),
      some (rowsOf [[850], [841]]), some (rowsOf [[-1, -32], [31, 62]]), some (rowsOf [[2, 0, -4]]),
      none] }

/-! ### Decoding (E1 to E30, F1) -/

theorem test_decode_nop : decode 0x00000000#64 = .ok .nop := by decide +kernel
theorem test_decode_clrf : decode 0x01000000#64 = .ok .clrf := by decide +kernel
theorem test_decode_setmod : decode 0x02000000#64 = .ok .setmod := by decide +kernel
theorem test_decode_getmod : decode 0x03000000#64 = .ok .getmod := by decide +kernel
theorem test_decode_hldh : decode 0x10000000#64 = .ok .hldh := by decide +kernel
theorem test_decode_hldc : decode 0x11000000#64 = .ok .hldc := by decide +kernel
theorem test_decode_hldr : decode 0x12000000#64 = .ok .hldr := by decide +kernel
theorem test_decode_hldv : decode 0x13000000#64 = .ok .hldv := by decide +kernel
theorem test_decode_hldu : decode 0x14000000#64 = .ok .hldu := by decide +kernel
theorem test_decode_hrd : decode 0x15000600#64 = .ok (.hrd 6) ∧ decode 0x15000F00#64 = .ok (.hrd 15) := by
  decide +kernel
theorem test_decode_hflip : decode 0x16000060#64 = .ok (.hflip 6) := by decide +kernel
theorem test_decode_henc : decode 0x18000000#64 = .ok .henc := by decide +kernel
theorem test_decode_hsyn : decode 0x19000000#64 = .ok .hsyn := by decide +kernel
theorem test_decode_hloc : decode 0x1A000000#64 = .ok .hloc := by decide +kernel
theorem test_decode_hcor : decode 0x1B000000#64 = .ok .hcor := by decide +kernel
theorem test_decode_hprj : decode 0x1C000000#64 = .ok .hprj := by decide +kernel
theorem test_decode_mshape : decode 0x20700880#64 = .ok (.mshape 7 8 8) := by decide +kernel
theorem test_decode_mst : decode 0x21500260#64 = .ok (.mst 5 2 6) := by decide +kernel
theorem test_decode_mld : decode 0x22050260#64 = .ok (.mld 5 2 6) := by decide +kernel
theorem test_decode_mdim : decode 0x23030000#64 = .ok (.mdim 3) := by decide +kernel
theorem test_decode_mmul : decode 0x24765000#64 = .ok (.mmul 7 6 5) := by decide +kernel
theorem test_decode_mred : decode 0x25220000#64 = .ok (.mred 2 2) := by decide +kernel
theorem test_decode_mtrn : decode 0x26140000#64 = .ok (.mtrn 1 4) := by decide +kernel
theorem test_decode_mdet : decode 0x27060000#64 = .ok (.mdet 6) := by decide +kernel
theorem test_decode_minv : decode 0x28300000#64 = .ok (.minv 3 0) := by decide +kernel
theorem test_decode_mchk : decode 0x29070000#64 = .ok (.mchk 7) := by decide +kernel
theorem test_decode_mzt : decode 0x2A040000#64 = .ok (.mzt 4) := by decide +kernel

theorem test_reserved_opcodes :
    [0x04000000#64, 0x0F000000#64, 0x17000000#64, 0x1D000000#64, 0x1F000000#64, 0x2B000000#64,
      0xFF000000#64].all (fun w => decode w == .error .reservedOpcode) = true := by decide +kernel

theorem test_stray_bits :
    [0x00000001#64, 0x01000010#64, 0x19000100#64, 0x15000610#64, 0x16100030#64, 0x20000221#64,
      0x20010220#64, 0x24012300#64, 0x27100000#64, 0x2A001000#64].all
      (fun w => decode w == .error .strayBits) = true := by decide +kernel

theorem test_high_bits :
    decode 0x100000000#64 = .error .highBits ∧ decode 0x8000000019000000#64 = .error .highBits := by
  decide +kernel

theorem test_encode_words :
    encode (.mmul 7 6 5) = 0x24765000#64 ∧ encode (.mst 5 2 6) = 0x21500260#64 ∧
      encode (.hflip 6) = 0x16000060#64 ∧ encode (.minv 3 0) = 0x28300000#64 := by decide +kernel

theorem test_decodeTableWord :
    decodeTableWord 32 0x24201000 = some (.mmul 2 0 1) ∧ decodeTableWord 32 0x17000000 = none := by
  decide +kernel

/-! ### Ill-formed terms: a value that does not fit its 4-bit field (R42) -/

theorem test_illFormed_selector : (Instr.hrd 16).wellFormed = false ∧ (Instr.hflip 16).wellFormed = false := by
  decide

theorem test_illFormed_indexed :
    (Instr.mshape 16 1 1).wellFormed = false ∧ (Instr.mshape 0 16 1).wellFormed = false ∧
      (Instr.mshape 0 1 16).wellFormed = false ∧ (Instr.mst 16 0 0).wellFormed = false ∧
      (Instr.mst 0 16 0).wellFormed = false ∧ (Instr.mst 0 0 16).wellFormed = false ∧
      (Instr.mld 16 0 0).wellFormed = false ∧ (Instr.mld 0 16 0).wellFormed = false ∧
      (Instr.mld 0 0 16).wellFormed = false := by decide

theorem test_illFormed_registers :
    (Instr.mmul 16 0 0).wellFormed = false ∧ (Instr.mmul 0 16 0).wellFormed = false ∧
      (Instr.mmul 0 0 16).wellFormed = false ∧ (Instr.mred 16 0).wellFormed = false ∧
      (Instr.mred 0 16).wellFormed = false ∧ (Instr.mtrn 16 0).wellFormed = false ∧
      (Instr.mtrn 0 16).wellFormed = false ∧ (Instr.minv 16 0).wellFormed = false ∧
      (Instr.minv 0 16).wellFormed = false := by decide

theorem test_illFormed_source :
    (Instr.mdim 16).wellFormed = false ∧ (Instr.mdet 16).wellFormed = false ∧
      (Instr.mchk 16).wellFormed = false ∧ (Instr.mzt 16).wellFormed = false := by decide

/-! ### The commands -/

/-- R54: any state, the same state. -/
theorem test_nop : passes (exec .nop sample) (· == sample) = true := by decide +kernel

/-- H1, H5: CLRF after a fault. -/
theorem test_clrf :
    passes (exec .clrf (takeFault ⟨.operandRange, 0#64⟩ 0x13000000#64 sample)) (· == sample) = true := by
  decide +kernel

/-- M10. -/
theorem test_setmod_max :
    passes (exec .setmod (writeDin 0x7FFFFFFFFFFFFFFF#64 State.reset))
      (fun t => t.modReg == some 0x7FFFFFFFFFFFFFFF#64 && !t.fault) = true := by decide +kernel

/-- M10: a DIN with bit 63 set is negative. -/
theorem test_setmod_negative :
    passes (exec .setmod (writeDin 0x8000000000000000#64 (withMod 31 State.reset)))
      (fun t => faulted 5#8 0x02000000#64 0#64 t && t.modReg == some 31#64) = true := by decide +kernel

/-- M10. -/
theorem test_getmod : passes (exec .getmod sample) (fun t => t.dout == 31#64) = true := by decide +kernel

theorem test_getmod_unset :
    passes (exec .getmod State.reset) (faulted 3#8 0x03000000#64 0#64) = true := by decide +kernel

/-- H1, H7: reloading H clears SV and LV. -/
theorem test_hldh :
    passes (exec .hldh (writeDin 0x1E3355#64 sample))
      (fun t => t.hReg == some 0x1E3355#21 && t.sReg == none && t.locReg == none) = true := by
  decide +kernel

theorem test_hldh_range :
    passes (exec .hldh (writeDin 0x200000#64 sample)) (faulted 5#8 0x10000000#64 0#64) = true := by
  decide +kernel

/-- H1: loading C does not touch S or LOC (R59). -/
theorem test_hldc :
    passes (exec .hldc (writeDin 0xFFFFFFF#64 sample))
      (fun t => t.cReg == some 0xFFFFFFF#28 && t.sReg == some 4#3 && t.locReg == some 0xB#4) = true := by
  decide +kernel

theorem test_hldc_range :
    passes (exec .hldc (writeDin 0x10000000#64 sample)) (faulted 5#8 0x11000000#64 0#64) = true := by
  decide +kernel

theorem test_hldr :
    passes (exec .hldr (writeDin 0x8080804#64 State.reset)) (fun t => t.rReg == some 0x8080804#28) = true := by
  decide +kernel

theorem test_hldr_range :
    passes (exec .hldr (writeDin 0x10000000#64 sample)) (faulted 5#8 0x12000000#64 0#64) = true := by
  decide +kernel

theorem test_hldv :
    passes (exec .hldv (writeDin 0xF#64 State.reset)) (fun t => t.vReg == some 0xF#4) = true := by
  decide +kernel

/-- H1: V keeps its value. -/
theorem test_hldv_range :
    passes (exec .hldv (writeDin 0x10#64 sample))
      (fun t => faulted 5#8 0x13000000#64 0#64 t && t.vReg == some 0xB#4) = true := by decide +kernel

theorem test_hldu :
    passes (exec .hldu (writeDin 0x7F#64 sample))
      (fun t => t.uReg == some 0x7F#7 && t.sReg == none && t.locReg == none) = true := by decide +kernel

theorem test_hldu_range :
    passes (exec .hldu (writeDin 0x80#64 sample)) (faulted 5#8 0x14000000#64 0#64) = true := by
  decide +kernel

/-- H1 and R63: H, LOC. -/
theorem test_hrd :
    passes (exec (.hrd 0) sample) (fun t => t.dout == 0x1E3355#64) = true ∧
      passes (exec (.hrd 6) sample) (fun t => t.dout == 0xB#64) = true := by decide +kernel

/-- H12. -/
theorem test_hrd_faults :
    passes (exec (.hrd 5) State.reset) (faulted 3#8 0x15000500#64 0#64) = true ∧
      passes (exec (.hrd 7) State.reset) (faulted 4#8 0x15000700#64 0#64) = true := by decide +kernel

/-- R64: `U = 0x55`, `HFLIP 3` gives 0x5D. -/
theorem test_hflip :
    passes (exec (.hflip 3) (writeU 0x55#7 State.reset)) (fun t => t.uReg == some 0x5D#7) = true := by
  decide +kernel

/-- H8, H12: `HFLIP 9` on the reset state is Unwritten, not IndexRange. -/
theorem test_hflip_faults :
    passes (exec (.hflip 7) (writeU 0x54#7 State.reset)) (faulted 4#8 0x16000070#64 0#64) = true ∧
      passes (exec (.hflip 9) State.reset) (faulted 3#8 0x16000090#64 0#64) = true := by decide +kernel

/-- H7: V = 0xB gives U = 0x55, SV and LV cleared. -/
theorem test_henc :
    passes (exec .henc sample)
      (fun t => t.uReg == some 0x55#7 && t.sReg == none && t.locReg == none && t.vReg == some 0xB#4)
      = true := by decide +kernel

/-- H2. -/
theorem test_henc_any_c :
    passes (exec .henc (writeV 0xA#4 (writeC 0x1010101#28 State.reset))) (fun t => t.uReg == some 0x0A#7)
      = true := by decide +kernel

/-- R66: `U = 0x5D` gives `S = 4`; LV is cleared. -/
theorem test_hsyn :
    passes (exec .hsyn sample) (fun t => t.sReg == some 4#3 && t.locReg == none) = true := by
  decide +kernel

/-- H11: the rows in the opposite order, `U = 0x54` gives `S = 4`. -/
theorem test_hsyn_other_h :
    passes (exec .hsyn (writeU 0x54#7 (writeH 0x157378#21 State.reset))) (fun t => t.sReg == some 4#3)
      = true := by decide +kernel

/-- H4: all eight syndromes. -/
theorem test_hloc :
    [(0#3, 0x0#4), (1#3, 0x8#4), (2#3, 0x9#4), (3#3, 0xA#4), (4#3, 0xB#4), (5#3, 0xC#4), (6#3, 0xD#4),
      (7#3, 0xE#4)].all (fun p => passes (exec .hloc (writeS p.1 State.reset))
        (fun t => t.locReg == some p.2 && t.sReg == some p.1)) = true := by decide +kernel

theorem test_hloc_stale : passes (exec .hloc State.reset) (faulted 3#8 0x1A000000#64 0#64) = true := by
  decide +kernel

/-- H5, R68: a flipping HCOR clears SV and LV. -/
theorem test_hcor :
    passes (exec .hcor sample)
      (fun t => t.uReg == some 0x55#7 && t.sReg == none && t.locReg == none) = true := by decide +kernel

/-- H5: with `LOC = 0` nothing changes. -/
theorem test_hcor_none :
    passes (exec .hcor (writeLoc 0#4 (writeS 0#3 sample))) (· == writeLoc 0#4 (writeS 0#3 sample)) = true := by
  decide +kernel

/-- H6. -/
theorem test_hprj :
    passes (exec .hprj sample) (fun t => t.vReg == some 0xB#4 && t.sReg == some 4#3) = true ∧
      passes (exec .hprj (writeU 0x47#7 sample)) (fun t => t.vReg == some 0x9#4) = true := by decide +kernel

theorem test_hprj_unwritten : passes (exec .hprj State.reset) (faulted 3#8 0x1C000000#64 0#64) = true := by
  decide +kernel

/-- M1. -/
theorem test_mshape :
    passes (exec (.mshape 0 2 3) sample) (fun t => matrixReg 0 t == some (rowsOf [[0, 0, 0], [0, 0, 0]]))
      = true := by decide +kernel

/-- F2, F3: BadRegister wins over IndexRange; rows 0 is out of range. -/
theorem test_mshape_faults :
    passes (exec (.mshape 8 9 9) State.reset) (faulted 2#8 0x20800990#64 0#64) = true ∧
      passes (exec (.mshape 0 0 9) State.reset) (faulted 4#8 0x20000090#64 0#64) = true := by decide +kernel

/-- R78: `MST M0, 0, 1` with DIN = -1. -/
theorem test_mst :
    passes (exec (.mst 0 0 1) (writeDin 0xFFFFFFFFFFFFFFFF#64 sample))
      (fun t => matrixReg 0 t == some (rowsOf [[11, -1], [20, 23]])) = true := by decide +kernel

/-- F3: an unwritten register has no shape to hold the index against. -/
theorem test_mst_faults :
    passes (exec (.mst 7 9 9) sample) (faulted 3#8 0x21700990#64 0#64) = true ∧
      passes (exec (.mst 6 1 0) sample) (faulted 4#8 0x21600100#64 0#64) = true := by decide +kernel

/-- R79 and M1: a negative entry in two's complement. -/
theorem test_mld :
    passes (exec (.mld 5 0 0) sample) (fun t => t.dout == 0xFFFFFFFFFFFFFFFF#64) = true ∧
      passes (exec (.mld 0 1 0) sample) (fun t => t.dout == 20#64) = true := by decide +kernel

theorem test_mld_range : passes (exec (.mld 6 0 3) sample) (faulted 4#8 0x22060030#64 0#64) = true := by
  decide +kernel

/-- R80, M1. -/
theorem test_mdim :
    passes (exec (.mdim 3) sample) (fun t => t.dout == 0x23#64) = true := by decide +kernel

/-- R81. -/
theorem test_mmul :
    passes (exec (.mmul 2 0 1) sample) (fun t => matrixReg 2 t == some (rowsOf [[850], [841]])) = true := by
  decide +kernel

/-- M3: -2^63 fits, 2^63 does not. -/
theorem test_mmul_overflow :
    passes (exec (.mmul 7 0 1) (writeMatrix 0 (rowsOf [[-4611686018427387904]])
        (writeMatrix 1 (rowsOf [[2]]) State.reset)))
      (fun t => matrixReg 7 t == some (rowsOf [[-9223372036854775808]])) = true ∧
    passes (exec (.mmul 7 0 1) (writeMatrix 0 (rowsOf [[4611686018427387904]])
        (writeMatrix 1 (rowsOf [[2]]) State.reset)))
      (fun t => faulted 8#8 0x24701000#64 0#64 t && matrixReg 7 t == none) = true := by decide +kernel

/-- R82, N = 31. -/
theorem test_mred :
    passes (exec (.mred 7 5) sample) (fun t => matrixReg 7 t == some (rowsOf [[30, 30], [0, 0]])) = true := by
  decide +kernel

/-- F3: BadRegister before the unwritten source. -/
theorem test_mred_faults :
    passes (exec (.mred 9 2) State.reset) (faulted 2#8 0x25920000#64 0#64) = true := by decide +kernel

/-- M4, in place. -/
theorem test_mtrn :
    passes (exec (.mtrn 3 3) sample) (fun t => matrixReg 3 t == some (rowsOf [[1, 4], [2, 5], [3, 6]]))
      = true := by decide +kernel

/-- M6: N = 31, N = 26. -/
theorem test_mdet :
    passes (exec (.mdet 0) sample) (fun t => t.dout == 0x17#64) = true ∧
      passes (exec (.mdet 0) (withMod 26 (writeMatrix 0 (rowsOf [[6, 24, 1], [13, 16, 10], [20, 17, 15]])
        State.reset))) (fun t => t.dout == 0x19#64) = true := by decide +kernel

/-- M6: 1 by 3. -/
theorem test_mdet_shape : passes (exec (.mdet 6) sample) (faulted 6#8 0x27060000#64 0#64) = true := by
  decide +kernel

/-- M7: a 4 by 4 modulo 31, in place. -/
theorem test_minv :
    passes (exec (.minv 5 5) (writeMatrix 5
        (rowsOf [[1, 2, 0, 3], [0, 1, 4, 0], [2, 0, 1, 1], [0, 3, 0, 1]]) sample))
      (fun t => matrixReg 5 t == some (rowsOf
        [[17, 2, 23, 19], [20, 18, 21, 12], [26, 19, 18, 28], [2, 8, 30, 27]])) = true := by decide +kernel

/-- M8: N = 26, a non-zero determinant that is no unit. -/
theorem test_minv_singular :
    passes (exec (.minv 7 3) (withMod 26 (writeMatrix 3 (rowsOf [[2, 0], [0, 1]]) State.reset)))
      (fun t => faulted 7#8 0x28730000#64 2#64 t && matrixReg 7 t == none) = true := by decide +kernel

/-- M9, N = 26. -/
theorem test_mchk :
    passes (exec (.mchk 0) (withMod 26 (writeMatrix 0 (rowsOf [[3, 3], [2, 5]]) State.reset)))
      (fun t => t.dout == 9#64) = true := by decide +kernel

/-- R89: N = 31, `[[2,4],[1,2]]`, FINFO = 0. -/
theorem test_mchk_singular : passes (exec (.mchk 2) sample) (faulted 7#8 0x29020000#64 0#64) = true := by
  decide +kernel

/-- M5, M1. -/
theorem test_mzt :
    passes (exec (.mzt 6) sample) (fun t => t.dout == 0#64) = true ∧
      passes (exec (.mzt 6) (writeMatrix 6 (rowsOf [[0, 0, 0]]) sample)) (fun t => t.dout == 1#64) = true := by
  decide +kernel

/-! ### The window, the step -/

/-- H7: every Hamming valid bit; M0 to M6 and MOD. -/
theorem test_status : status sample = 0x17F00FE#64 := by decide +kernel

/-- F4: STATUS, FCMD after a recorded fault; a dropped command; DIN writable. -/
theorem test_gate :
    passes (step (issueCommand 0x01000010#64 (takeFault ⟨.singularMatrix, 0#64⟩ 0x28200000#64 sample)))
      (fun t => status t == 0x17F07FF#64 && faulted 7#8 0x28200000#64 0#64 t) = true := by decide +kernel

/-- F1. -/
theorem test_illegal_command :
    passes (step (issueCommand 0x8000000019000000#64 State.reset))
      (fun t => faulted 1#8 0x8000000019000000#64 0#64 t && status t == 0x101#64) = true := by decide +kernel

/-- F5: a read of CMD returns 0 and executes nothing. -/
theorem test_read_cmd :
    passes (step { sample with accesses := [.read 0x00 8] }) (· == { sample with reads := [0#64] }) = true := by
  decide +kernel

theorem test_refused_accesses :
    step { sample with accesses := [.read 0x30 8] } = .refused .outsideWindow ∧
      step { sample with accesses := [.write 0x08 4 1#64] } = .refused .accessWidth ∧
      step { sample with accesses := [.write 0x0C 8 1#64] } = .refused .accessAlignment :=
  ⟨rfl, rfl, rfl⟩

theorem test_withFetchWord :
    passes (step (State.withFetchWord State.reset 32 0x20000220))
      (fun t => matrixReg 0 t == some (rowsOf [[0, 0], [0, 0]]) && t.accesses == []) = true := by
  decide +kernel

/-! ### Witnesses: each obligation's hypotheses are met, clause by clause, at the ends of their ranges -/

theorem wf_rowsOf {A : Mat} (h : decide A.wf = true) : A.wf := of_decide_eq_true h

/-- The sample is a state a run could reach. -/
theorem witness_inv_sample : Inv sample := by
  refine ⟨?_, ?_, ?_, ?_, ?_, ?_⟩
  · intro k A h
    by_cases hk : k < 8
    · have hall : ∀ k : Fin 8, ∀ A ∈ matrixReg k sample, A.wf := by decide +kernel
      exact hall ⟨k, hk⟩ A h
    · rw [matrixReg, Vector.getElem?_eq_none (by simpa using hk)] at h
      cases h
  · intro n h
    cases h
    decide
  · intro x h
    cases h
    exact ⟨_, _, rfl, rfl, by decide +kernel⟩
  · intro l h
    cases h
    exact ⟨_, rfl, by decide +kernel⟩
  · intro _
    exact ⟨rfl, rfl, rfl⟩
  · intro h
    cases h

/-- A state with a recorded fault. -/
def faultedSample : State := takeFault ⟨.singularMatrix, 0#64⟩ 0x28200000#64 sample

theorem witness_ResetPutsEveryRegisterAtItsValue :
    ({ sample with accesses := [.reset, .read 0x18 8] } : State).accesses = .reset :: [.read 0x18 8] := rfl

theorem witness_InvKeptByEveryStep :
    Inv { sample with accesses := [.write 0x00 8 0x28700000#64] } ∧
      ∃ t, step { sample with accesses := [.write 0x00 8 0x28700000#64] } = .next t ∧
        (matrixReg 7 t).isSome = true :=
  ⟨inv_accesses witness_inv_sample _, next_of_passes (by decide +kernel)⟩

theorem witness_DecodeOfEncode :
    (Instr.mmul 15 15 15).wellFormed = true ∧ (Instr.mst 15 15 15).wellFormed = true ∧
      (Instr.mld 15 15 15).wellFormed = true ∧ (Instr.hrd 15).wellFormed = true ∧
      (Instr.hflip 15).wellFormed = true := by decide

theorem witness_EncodeOfDecode :
    decode 0x24765000#64 = .ok (.mmul 7 6 5) ∧ decode 0x24FFF000#64 = .ok (.mmul 15 15 15) := by
  decide +kernel

theorem witness_LegalMeansExactlyOneRow :
    (¬∃ i, decode 0x24765100#64 = .ok i) ∧ State.reset.fault = false ∧
      decode 0x20700880#64 = .ok (.mshape 7 8 8) := by
  refine ⟨?_, rfl, by decide +kernel⟩
  rintro ⟨i, h⟩
  rw [show decode 0x24765100#64 = .error .strayBits from by decide +kernel] at h
  cases h

/-- The four kinds of illegal value, at the ends of each range of reserved opcodes. -/
theorem witness_IllegalValuesRaiseIllegalCommand :
    (issueCommand 0x100000000#64 State.reset).accesses = .write 0x00 8 0x100000000#64 :: [] ∧
    (issueCommand 0x100000000#64 State.reset).fault = false ∧
    (0x100000000#64).extractLsb' 32 32 ≠ 0#32 ∧
    (∀ r ∈ opcodeTable, (0x27100000#64).extractLsb' 0 32 &&& r.mask ≠ r.pattern) ∧
    ([0x04000000#64, 0x0F000000#64, 0x17000000#64, 0x1D000000#64, 0x1F000000#64, 0x2B000000#64,
      0xFF000000#64].all fun w =>
        let op := (w.extractLsb' 24 8).toNat
        decide ((0x04 ≤ op ∧ op ≤ 0x0F) ∨ op = 0x17 ∨ (0x1D ≤ op ∧ op ≤ 0x1F) ∨ 0x2B ≤ op)) = true ∧
    (0x00000001#64).extractLsb' 0 4 ≠ 0#4 := by decide +kernel

theorem witness_StepRunsTheDecodedCommand :
    (issueCommand 0x24201000#64 sample).accesses = .write 0x00 8 0x24201000#64 :: [] ∧
      (issueCommand 0x24201000#64 sample).fault = false ∧ decode 0x24201000#64 = .ok (.mmul 2 0 1) := by
  decide +kernel

theorem witness_FaultedStateDropsCommands :
    faultedSample.fault = true ∧
    (issueCommand 0x01000010#64 faultedSample).accesses = .write 0x00 8 0x01000010#64 :: [] ∧
    (0x01000010#64 : Word) ≠ 0x0000000001000000#64 ∧
    (issueCommand 0x01000000#64 faultedSample).accesses = .write 0x00 8 0x0000000001000000#64 :: [] ∧
    ({ faultedSample with accesses := [.write 0x08 8 77#64] } : State).accesses
      = .write 0x08 8 77#64 :: [] ∧
    ({ faultedSample with accesses := [.read 0x28 8] } : State).accesses
      = .read (windowOffset .finfo) 8 :: [] := by decide +kernel

/-- One state for every register of the window; the offsets exclude each other. -/
theorem witness_HostReadReturnsTheRegister :
    [(0x00 : Int), 0x08, 0x10, 0x18, 0x20, 0x28].all (fun off =>
      ({ sample with accesses := [.read off 8] } : State).accesses == [.read off 8]) = true := by
  decide +kernel

theorem witness_HostWriteEffects :
    [(0x00 : Int), 0x08, 0x10, 0x18, 0x20, 0x28].all (fun off =>
      ({ sample with accesses := [.write off 8 1#64] } : State).accesses == [.write off 8 1#64]) = true := by
  decide +kernel

/-- Each kind of undefined access, read and written, and a defined one. -/
theorem witness_UndefinedAccessesAreRefused :
    [((0x08 : Int), 4), (0x08, 16), (0x04, 8), (-8, 8), (0x40, 8), (0x30, 8), (0x38, 8)].all (fun a =>
      (match step { sample with accesses := [.read a.1 a.2] } with
        | .refused _ => true | .next _ => false | .fault _ => false) &&
      (match step { sample with accesses := [.write a.1 a.2 1#64] } with
        | .refused _ => true | .next _ => false | .fault _ => false)) = true ∧
    passes (step { sample with accesses := [.read 0x28 8] }) (fun _ => true) = true := by decide +kernel

theorem witness_AccessesAreServedInOrder :
    sample.accesses = [] ∧
      ({ sample with accesses := [.read 0x10 8, .reset] } : State).accesses = .read 0x10 8 :: [.reset] ∧
      (∃ t, step { sample with accesses := [.read 0x10 8, .reset] } = .next t ∧ (t.reads == [0#64]) = true) ∧
      ∃ t, step { sample with accesses := [.reset] } = .next t ∧ (t.reads == []) = true :=
  ⟨rfl, rfl, next_of_passes (by decide +kernel), next_of_passes (by decide +kernel)⟩

/-- R35: the indices of R22's two ranges of bits. -/
theorem witness_StatusBits : (7 : Nat) < 8 ∧ (25 : Nat) ≤ 63 := by decide

theorem witness_CommandCompletesOrOnlyFaults : sample.fault = false ∧ State.reset.fault = false := ⟨rfl, rfl⟩

theorem witness_FaultEntryRecordsTheWrittenValue :
    (issueCommand 0x28720000#64 sample).accesses = .write 0x00 8 0x28720000#64 :: [] ∧
      (issueCommand 0x28720000#64 sample).fault = false ∧
      ∃ t, step (issueCommand 0x28720000#64 sample) = .next t ∧ t.fault = true :=
  ⟨rfl, rfl, next_of_passes (by decide +kernel)⟩

theorem witness_OnlyListedFaultsAreRaised :
    sample.fault = false ∧ ∃ t, exec (.minv 7 2) sample = .next t ∧ t.fault = true :=
  ⟨rfl, next_of_passes (by decide +kernel)⟩

theorem witness_ClrfUndoesTheFault :
    Inv sample ∧ sample.fault = false ∧ ∃ t, exec (.mmul 7 0 3) sample = .next t ∧ t.fault = false ∧
      ∃ t, exec (.mmul 7 3 0) sample = .next t ∧ t.fault = true := by
  refine ⟨witness_inv_sample, rfl, ?_⟩
  obtain ⟨t, h, hp⟩ := next_of_passes (r := exec (.mmul 7 0 3) sample) (p := fun t => !t.fault)
    (by decide +kernel)
  exact ⟨t, h, by simpa using hp, next_of_passes (by decide +kernel)⟩

theorem witness_NoFaultAtTheEndMeansNoneOnTheWay :
    State.reset.fault = false ∧
      (∀ a ∈ [HostAccess.write 0x08 8 31#64, .write 0x00 8 0x02000000#64, .read 0x18 8],
        a ≠ .reset ∧ a ≠ .write 0x00 8 0x0000000001000000#64) ∧
      ∃ t, runAccesses [.write 0x08 8 31#64, .write 0x00 8 0x02000000#64, .read 0x18 8] State.reset
        = .next t ∧ (!wentWrong t) = true :=
  ⟨rfl, by decide +kernel, next_of_passes (by decide +kernel)⟩

theorem witness_RegistersChangeOnlyByTheirCommands :
    (∃ t, exec .hsyn sample = .next t ∧ (t.locReg == none) = true) ∧ destination .hsyn ≠ some 0 ∧
      destination (.mtrn 7 0) ≠ some 0 ∧ writesDout .hsyn = false ∧ writesU .hsyn = false ∧
      writesU (.mtrn 7 0) = false := by
  exact ⟨next_of_passes (by decide +kernel), by decide, by decide, rfl, rfl, rfl⟩

theorem witness_ValidBitsAreClearedOnlyByReset :
    (∃ t, step (issueCommand 0x14000000#64 sample) = .next t ∧ (t.sReg == none) = true) ∧
      (∀ rest, (issueCommand 0x14000000#64 sample).accesses ≠ .reset :: rest) ∧
      (matrixReg 0 sample).isSome ∧ sample.modReg.isSome ∧ sample.hReg.isSome ∧ sample.cReg.isSome ∧
      sample.rReg.isSome ∧ sample.vReg.isSome ∧ sample.uReg.isSome :=
  ⟨next_of_passes (by decide +kernel), (by intro _ h; cases h), rfl, rfl, rfl, rfl, rfl, rfl, rfl⟩

theorem witness_MatrixRegisterReadAfterWrite : (7 : Nat) < 8 ∧ (0 : Nat) ≠ 7 := by decide

theorem witness_NopAndClrfEffects : Inv sample ∧ sample.fault = false := ⟨witness_inv_sample, rfl⟩

theorem witness_SetmodEffect :
    (writeDin 1#64 sample).din.toInt < 2 ∧ (writeDin 0x8000000000000000#64 sample).din.toInt < 2 ∧
      2 ≤ (writeDin 2#64 sample).din.toInt ∧ 2 ≤ (writeDin 0x7FFFFFFFFFFFFFFF#64 sample).din.toInt := by
  decide +kernel

theorem witness_GetmodEffect : State.reset.modReg = none ∧ sample.modReg = some 31#64 := ⟨rfl, rfl⟩

theorem witness_HammingMatrixLoads :
    2 ^ 21 ≤ (writeDin 0x200000#64 sample).din.toNat ∧ (writeDin 0x1FFFFF#64 sample).din.toNat < 2 ^ 21 ∧
      2 ^ 28 ≤ (writeDin 0x10000000#64 sample).din.toNat ∧
      (writeDin 0xFFFFFFF#64 sample).din.toNat < 2 ^ 28 := by decide +kernel

theorem witness_HammingBlockLoads :
    2 ^ 4 ≤ (writeDin 0x10#64 sample).din.toNat ∧ (writeDin 0xF#64 sample).din.toNat < 2 ^ 4 ∧
      2 ^ 7 ≤ (writeDin 0x80#64 sample).din.toNat ∧ (writeDin 0x7F#64 sample).din.toNat < 2 ^ 7 := by
  decide +kernel

theorem witness_HrdEffect :
    (State.reset.hReg = none ∧ State.reset.cReg = none ∧ State.reset.rReg = none ∧
      State.reset.vReg = none ∧ State.reset.uReg = none ∧ State.reset.sReg = none ∧
      State.reset.locReg = none) ∧
    (sample.hReg = some 0x1E3355#21 ∧ sample.cReg = some 0x96A8C87#28 ∧ sample.rReg = some 0x8080804#28 ∧
      sample.vReg = some 0xB#4 ∧ sample.uReg = some 0x5D#7 ∧ sample.sReg = some 4#3 ∧
      sample.locReg = some 0xB#4) ∧ (7 : Nat) ≤ 7 := by decide +kernel

theorem witness_HflipEffect :
    State.reset.uReg = none ∧ sample.uReg = some 0x5D#7 ∧ (6 : Nat) < 7 ∧ (6 : Nat) ≤ 6 := by decide +kernel

theorem witness_HencEffect :
    (State.reset.cReg = none ∨ State.reset.vReg = none) ∧
      ((writeC 0x96A8C87#28 State.reset).cReg = none ∨ (writeC 0x96A8C87#28 State.reset).vReg = none) ∧
      sample.cReg = some 0x96A8C87#28 ∧ sample.vReg = some 0xB#4 := by decide +kernel

theorem witness_HsynEffect :
    (State.reset.hReg = none ∨ State.reset.uReg = none) ∧ sample.hReg = some 0x1E3355#21 ∧
      sample.uReg = some 0x5D#7 := by decide +kernel

theorem witness_HlocEffect :
    State.reset.sReg = none ∧ (writeS 0#3 State.reset).sReg = some 0#3 ∧ sample.sReg = some 4#3 ∧
      (4#3 : BitVec 3) ≠ 0#3 := by decide +kernel

theorem witness_HcorEffect :
    State.reset.locReg = none ∧ (writeLoc 0#4 sample).locReg = some 0#4 ∧ (0#4).getLsbD 3 = false ∧
      sample.locReg = some 0xB#4 ∧ (0xB#4).getLsbD 3 = true ∧ sample.uReg = some 0x5D#7 := by decide +kernel

theorem witness_HprjEffect :
    (State.reset.rReg = none ∨ State.reset.uReg = none) ∧ sample.rReg = some 0x8080804#28 ∧
      sample.uReg = some 0x5D#7 := by decide +kernel

/-- H* locates at position 6, and the H of vector H11 does not at position 0. -/
theorem witness_HStarIsTheOnlyMatrixThatLocates :
    syndrome 0x1E3355#21 0x55#7 = 0#3 ∧ (locate (syndrome 0x1E3355#21 (flipBit 6 0x55#7))).toNat = 8 + 6 ∧
      (locate (syndrome 0x157378#21 (flipBit 0 0x55#7))).toNat ≠ 8 + 0 := by decide +kernel

theorem finsetRange_sum_iff {m n : Nat} {A : BitVec m} {B : BitVec n} {ra rb : Nat} {unit : Bool}
    (h : decide (∀ r : Fin ra, ∀ q : Fin rb,
      (∑ k ∈ Finset.range 7, (element A r k).toNat * (element B q k).toNat) % 2
        = if unit && r.1 == q.1 then 1 else 0) = true) : gfProductIs A B ra rb unit :=
  fun r hr q hq => of_decide_eq_true h ⟨r, hr⟩ ⟨q, hq⟩

/-- TC1 satisfies R71 (b) and (c). -/
theorem witness_HammingCodeCorrectsSingleErrors :
    gfProductIs hStar 0x96A8C87#28 3 4 false ∧ gfProductIs 0x8080804#28 0x96A8C87#28 4 4 true ∧
      sample.fault = false ∧ sample.hReg = some hStar ∧ sample.cReg = some 0x96A8C87#28 ∧
      sample.rReg = some 0x8080804#28 ∧ (writeDin 0xF#64 sample).din = (0xF#4).setWidth 64 ∧
      sample.uReg = some 0x5D#7 :=
  ⟨finsetRange_sum_iff (by decide +kernel), finsetRange_sum_iff (by decide +kernel), rfl, rfl, rfl, rfl,
    by decide +kernel, rfl⟩

/-- H9: bits 1 and 4 of 0x55 flipped; HCOR flips bit 6. -/
theorem witness_DoubleErrorsAreMiscorrectedSilently :
    sample.fault = false ∧ sample.hReg = some hStar ∧ (writeU 0x47#7 sample).uReg = some 0x47#7 ∧
      (1 : Nat) < 7 ∧ (4 : Nat) < 7 ∧ (1 : Nat) ≠ 4 ∧ syndrome hStar 0x55#7 = 0#3 ∧
      0x47#7 = flipBit 4 (flipBit 1 0x55#7) ∧ 6 + 1 = (1 + 1) ^^^ (4 + 1) := by decide +kernel

theorem witness_MshapeEffect :
    (8 : Nat) ≤ 8 ∧ (7 : Nat) < 8 ∧ ((0 : Nat) = 0 ∨ (8 : Nat) < 9) ∧
      (1 : Nat) ≤ 1 ∧ (8 : Nat) ≤ 8 := by decide

/-- The clauses on registers and shapes that the commands with matrix registers share: numbers 8 and 7, an
unwritten register, an unset modulus, written registers, a shape's last row and column and one beyond. -/
def RegisterClauses : Prop :=
  (8 : Nat) ≤ 8 ∧ (7 : Nat) < 8 ∧ matrixReg 7 sample = none ∧
    matrixReg 0 (writeMatrix 0 (rowsOf [[7]]) State.reset) = some (rowsOf [[7]]) ∧
    (writeMatrix 0 (rowsOf [[7]]) State.reset).modReg = none ∧
    matrixReg 3 sample = some (rowsOf [[1, 2, 3], [4, 5, 6]]) ∧
    (rowsOf [[1, 2, 3], [4, 5, 6]]).rows ≤ 2 ∧ (rowsOf [[1, 2, 3], [4, 5, 6]]).cols ≤ 3 ∧
    1 < (rowsOf [[1, 2, 3], [4, 5, 6]]).rows ∧ 2 < (rowsOf [[1, 2, 3], [4, 5, 6]]).cols ∧
    sample.modReg = some 31#64 ∧ 2 ≤ sext64 31#64

theorem registerClauses : RegisterClauses := by
  unfold RegisterClauses
  decide +kernel

theorem witness_MldEffect : RegisterClauses := registerClauses
theorem witness_MdimEffect : RegisterClauses := registerClauses

theorem witness_MstEffect :
    RegisterClauses ∧ ¬((0 : Nat) = 1 ∧ (2 : Nat) = 2) := ⟨registerClauses, by decide⟩

/-- Vector M3: `[[2^62]]` and `[[2]]`. -/
def overflowSample : State :=
  writeMatrix 0 (rowsOf [[4611686018427387904]]) (writeMatrix 1 (rowsOf [[2]]) State.reset)

/-- Shapes that do not fit; exact entries that fit and, at 2^63, do not. -/
theorem witness_MmulEffect :
    matrixReg 7 sample = none ∧ matrixReg 3 sample = some (rowsOf [[1, 2, 3], [4, 5, 6]]) ∧
      matrixReg 0 sample = some (rowsOf [[11, 27], [20, 23]]) ∧ matrixReg 1 sample = some (rowsOf [[11], [27]]) ∧
      matrixReg 0 overflowSample = some (rowsOf [[4611686018427387904]]) ∧
      matrixReg 1 overflowSample = some (rowsOf [[2]]) ∧ (rowsOf [[4611686018427387904]]).cols = (rowsOf [[2]]).rows ∧
      (rowsOf [[1, 2, 3], [4, 5, 6]]).cols ≠ (rowsOf [[11, 27], [20, 23]]).rows ∧
      (rowsOf [[11, 27], [20, 23]]).cols = (rowsOf [[11], [27]]).rows ∧
      (∃ a < (rowsOf [[4611686018427387904]]).rows, ∃ b < (rowsOf [[2]]).cols,
        2 ^ 63 - 1 < ∑ t ∈ Finset.range (rowsOf [[4611686018427387904]]).cols,
          entryInt (rowsOf [[4611686018427387904]]) a t * entryInt (rowsOf [[2]]) t b) ∧
      (∀ a < (rowsOf [[11, 27], [20, 23]]).rows, ∀ b < (rowsOf [[11], [27]]).cols,
        -2 ^ 63 ≤ (∑ t ∈ Finset.range (rowsOf [[11, 27], [20, 23]]).cols,
          entryInt (rowsOf [[11, 27], [20, 23]]) a t * entryInt (rowsOf [[11], [27]]) t b) ∧
        (∑ t ∈ Finset.range (rowsOf [[11, 27], [20, 23]]).cols,
          entryInt (rowsOf [[11, 27], [20, 23]]) a t * entryInt (rowsOf [[11], [27]]) t b) ≤ 2 ^ 63 - 1) := by
  decide +kernel

theorem witness_MredEffect :
    RegisterClauses ∧ matrixReg 5 sample = some (rowsOf [[-1, -32], [31, 62]]) ∧ sample.modReg = some 31#64 ∧
      2 ≤ sext64 31#64 ∧ 2 ≤ sext64 2#64 ∧ 2 ≤ sext64 0x7FFFFFFFFFFFFFFF#64 :=
  ⟨registerClauses, by decide +kernel⟩

theorem witness_MtrnEffect : RegisterClauses ∧ (rowsOf [[1, 2, 3], [4, 5, 6]]).full :=
  ⟨registerClauses, by decide +kernel⟩

theorem witness_MztEffect :
    matrixReg 7 sample = none ∧ matrixReg 6 sample = some (rowsOf [[2, 0, -4]]) ∧
    matrixReg 6 (writeMatrix 6 (rowsOf [[0, 0, 0]]) sample) = some (rowsOf [[0, 0, 0]]) ∧
    (∀ a < (rowsOf [[0, 0, 0]]).rows, ∀ b < (rowsOf [[0, 0, 0]]).cols,
      entryInt (rowsOf [[0, 0, 0]]) a b = 0) ∧
    (∃ a < (rowsOf [[2, 0, -4]]).rows, ∃ b < (rowsOf [[2, 0, -4]]).cols,
      entryInt (rowsOf [[2, 0, -4]]) a b ≠ 0) := by decide +kernel

theorem witness_DetIsThePermutationSum : (2 : Int) ≤ 2 := by decide

theorem witness_InvModIsTheInverse :
    (2 : Int) ≤ 31 ∧ (0 : Int) ≤ 23 ∧ (23 : Int) < 31 ∧ Int.gcd 23 31 = 1 ∧
      (∃ e : Int, 0 ≤ e ∧ e < 31 ∧ 23 * e % 31 = 1) ∧ Int.gcd 1 2 = 1 :=
  ⟨by decide, by decide, by decide, by decide +kernel, ⟨27, by decide, by decide, by decide⟩, by decide +kernel⟩

theorem witness_AdjugateIdentity : (0 : Nat) < 1 ∧ (7 : Nat) < 8 := by decide

theorem det_unit : (squareMatrix (rowsOf [[11, 27], [20, 23]])).det = -287 := by
  rw [show (squareMatrix (rowsOf [[11, 27], [20, 23]])).det
    = entryInt (rowsOf [[11, 27], [20, 23]]) 0 0 * entryInt (rowsOf [[11, 27], [20, 23]]) 1 1
      - entryInt (rowsOf [[11, 27], [20, 23]]) 0 1 * entryInt (rowsOf [[11, 27], [20, 23]]) 1 0
    from Matrix.det_fin_two (squareMatrix (rowsOf [[11, 27], [20, 23]]))]
  decide +kernel

theorem det_zero : (squareMatrix (rowsOf [[2, 4], [1, 2]])).det = 0 := by
  rw [show (squareMatrix (rowsOf [[2, 4], [1, 2]])).det
    = entryInt (rowsOf [[2, 4], [1, 2]]) 0 0 * entryInt (rowsOf [[2, 4], [1, 2]]) 1 1
      - entryInt (rowsOf [[2, 4], [1, 2]]) 0 1 * entryInt (rowsOf [[2, 4], [1, 2]]) 1 0
    from Matrix.det_fin_two (squareMatrix (rowsOf [[2, 4], [1, 2]]))]
  decide +kernel

/-- For MDET, MINV, MCHK and the uniqueness of the inverse: a non-square matrix, a square one whose
determinant is a unit modulo 31 (R87: 23) and one whose determinant is not (0). -/
def DeterminantClauses : Prop :=
  RegisterClauses ∧ matrixReg 6 sample = some (rowsOf [[2, 0, -4]]) ∧
      (rowsOf [[2, 0, -4]]).rows ≠ (rowsOf [[2, 0, -4]]).cols ∧
      matrixReg 0 sample = some (rowsOf [[11, 27], [20, 23]]) ∧
      (rowsOf [[11, 27], [20, 23]]).rows = (rowsOf [[11, 27], [20, 23]]).cols ∧
      sample.modReg = some 31#64 ∧ 2 ≤ sext64 31#64 ∧
      (23 : Int) = (squareMatrix (rowsOf [[11, 27], [20, 23]])).det % (31#64).toNat ∧
      Int.gcd 23 (31#64).toNat = 1 ∧
      matrixReg 2 sample = some (rowsOf [[2, 4], [1, 2]]) ∧
      (rowsOf [[2, 4], [1, 2]]).rows = (rowsOf [[2, 4], [1, 2]]).cols ∧
      (0 : Int) = (squareMatrix (rowsOf [[2, 4], [1, 2]])).det % (31#64).toNat ∧
      Int.gcd 0 (31#64).toNat ≠ 1

theorem determinantClauses : DeterminantClauses := by
  unfold DeterminantClauses
  rw [det_unit, det_zero]
  exact ⟨registerClauses, by decide +kernel⟩

theorem witness_MdetEffect : DeterminantClauses := determinantClauses
theorem witness_MinvEffect : DeterminantClauses := determinantClauses
theorem witness_MchkEffect : DeterminantClauses := determinantClauses

/-- An array that is the inverse modulo 31 with entries in range. -/
theorem witness_MinvStoresTheUniqueInverse :
    DeterminantClauses ∧ ∀ a < 2, ∀ b < 2, 0 ≤ entryInt (rowsOf [[1, 15], [18, 18]]) a b ∧
      entryInt (rowsOf [[1, 15], [18, 18]]) a b < (31#64).toNat ∧
      (∑ k ∈ Finset.range 2, entryInt (rowsOf [[11, 27], [20, 23]]) a k
        * entryInt (rowsOf [[1, 15], [18, 18]]) k b) % (31#64).toNat = if a = b then 1 else 0 :=
  ⟨determinantClauses, by decide +kernel⟩

theorem witness_DetModAndAdjSeeOnlyResidues :
    (2 : Int) ≤ 31 ∧ (rowsOf [[7]]).rows = (rowsOf [[-24]]).rows ∧ (rowsOf [[7]]).rows = (rowsOf [[7]]).cols ∧
      (rowsOf [[-24]]).rows = (rowsOf [[-24]]).cols ∧
      ∀ a < (rowsOf [[7]]).rows, ∀ b < (rowsOf [[7]]).rows,
        entryInt (rowsOf [[7]]) a b % 31 = entryInt (rowsOf [[-24]]) a b % 31 := by decide +kernel

/-- S4a: N = 31, key K1, block [11, 27], into registers 2, 7 and 4. -/
theorem witness_HillRoundTrip :
    Inv sample ∧ sample.fault = false ∧ (2 : Nat) ≠ 0 ∧ (7 : Nat) ≠ 2 ∧
      matrixReg 1 sample = some (rowsOf [[11], [27]]) ∧ sample.modReg = some 31#64 ∧
      (∀ a < (rowsOf [[11], [27]]).rows, ∀ b < (rowsOf [[11], [27]]).cols,
        0 ≤ entryInt (rowsOf [[11], [27]]) a b ∧ entryInt (rowsOf [[11], [27]]) a b < (31#64).toNat) ∧
      ∃ t, runCommands [.mmul 2 0 1, .mred 2 2, .minv 7 0, .mmul 4 7 2, .mred 4 4] sample = .next t ∧
        (!t.fault) = true :=
  ⟨witness_inv_sample, rfl, by decide, by decide, rfl, rfl, by decide +kernel,
    next_of_passes (by decide +kernel)⟩

/-- H* and U = 0x5D as integer matrices. -/
def syndromeSample : State :=
  withMod 2 (writeMatrix 0
    (rowsOf [[1, 0, 1, 0, 1, 0, 1], [0, 1, 1, 0, 0, 1, 1], [0, 0, 0, 1, 1, 1, 1]])
    (writeMatrix 1 (rowsOf [[1], [0], [1], [1], [1], [0], [1]]) State.reset))

theorem witness_SyndromeOnTheEngine :
    syndromeSample.fault = false ∧ syndromeSample.modReg = some 2#64 ∧
      matrixReg 0 syndromeSample
        = some (rowsOf [[1, 0, 1, 0, 1, 0, 1], [0, 1, 1, 0, 0, 1, 1], [0, 0, 0, 1, 1, 1, 1]]) ∧
      matrixReg 1 syndromeSample = some (rowsOf [[1], [0], [1], [1], [1], [0], [1]]) ∧
      (∀ r < 3, ∀ k < 7,
        entryInt (rowsOf [[1, 0, 1, 0, 1, 0, 1], [0, 1, 1, 0, 0, 1, 1], [0, 0, 0, 1, 1, 1, 1]]) r k
          = (element 0x1E3355#21 r k).toNat) ∧
      (∀ k < 7, entryInt (rowsOf [[1], [0], [1], [1], [1], [0], [1]]) k 0 = ((0x5D#7).getLsbD k).toNat) := by
  decide +kernel

theorem witness_EncodingFormula : (15 : Nat) < 16 := by decide

theorem witness_McopyCopiesTheRegister :
    sample.fault = false ∧ (7 : Nat) < 8 ∧ (3 : Nat) < 8 ∧
      matrixReg 3 sample = some (rowsOf [[1, 2, 3], [4, 5, 6]]) ∧ (rowsOf [[1, 2, 3], [4, 5, 6]]).full := by
  decide +kernel

end Sys2Proof.Tests
end

section
/-! PROOFS. What a completing command writes: `Effect` says it once for all 27 commands, in the terms of the
"written by" column of R10, and `exec_effect` shows that every command has one of its cases. -/

namespace Sys2Proof.Machine

/-- The fault `f` is one that R112's matrix lists for `i`, and its FINFO is 0 but for SingularMatrix (R98). -/
def Listed (i : Instr) (f : Raised) : Prop :=
  f.cause ∈ allowedCauses i ∧ (f.cause ≠ .singularMatrix → f.info = 0#64)

/-- What the command `i` may make of the state `s` (R10, R102): fault entry with a listed cause, no change
(NOP, and HCOR where no error is located), CLRF's clearing, or the write of one register with what the command
guarantees of the value written. -/
inductive Effect (i : Instr) (s : State) : State → Prop
  | fault {f : Raised} (hf : Listed i f) : Effect i s (takeFault f (encode i) s)
  | unchanged (hi : i = .nop ∨ i = .hcor) : Effect i s s
  | clear (hi : i = .clrf) : Effect i s (clearFault s)
  | modulus {n : Word} (hi : i = .setmod) (hn : 2 ≤ sext64 n) : Effect i s (writeMod n s)
  | dout {v : Word} (hi : writesDout i = true) : Effect i s (writeDout v s)
  | matrix {k : Nat} {A : Mat} (hi : destination i = some k) (hA : Inv s → A.wf) :
      Effect i s (writeMatrix k A s)
  | parity {x : BitVec 21} (hi : i = .hldh) : Effect i s (writeH x s)
  | generator {x : BitVec 28} (hi : i = .hldc) : Effect i s (writeC x s)
  | decoder {x : BitVec 28} (hi : i = .hldr) : Effect i s (writeR x s)
  | block {x : BitVec 4} (hi : i = .hldv ∨ i = .hprj) : Effect i s (writeV x s)
  | codeword {x : BitVec 7} (hi : writesU i = true) : Effect i s (writeU x s)
  | syndrome {H : BitVec 21} {u : BitVec 7} (hi : i = .hsyn) (hH : s.hReg = some H) (hu : s.uReg = some u) :
      Effect i s (writeS (syndrome H u) s)
  | location {x : BitVec 3} (hi : i = .hloc) (hx : s.sReg = some x) : Effect i s (writeLoc (locate x) s)

/-- The computation `r` of the command `i` raises only listed faults, and what it delivers satisfies `P`. -/
def Meets {α : Type} (i : Instr) (r : Except Raised α) (P : α → Prop) : Prop :=
  (∀ f, r = .error f → Listed i f) ∧ ∀ a, r = .ok a → P a

section Meets

variable {i : Instr} {s t : State} {α β : Type} {P : α → Prop} {Q : β → Prop}

theorem meets_pure {a : α} (h : P a) : Meets i (pure a) P := by
  simpa [Meets] using h

theorem meets_bind {r : Except Raised α} {k : α → Except Raised β} (h : Meets i r fun a => Meets i (k a) Q) :
    Meets i (r >>= k) Q := by
  obtain ⟨herr, hok⟩ := h
  refine ⟨fun f hf => ?_, fun b hb => ?_⟩
  · obtain hr | ⟨a, ha, hk⟩ := bind_eq_error.1 hf
    · exact herr f hr
    · exact (hok a ha).1 f hk
  · obtain ⟨a, ha, hk⟩ := bind_eq_ok.1 hb
    exact (hok a ha).2 b hk

theorem meets_require {c : Prop} [Decidable c] {f : Cause} {info : Word} {k : Unit → Except Raised β}
    (h : c → Meets i (k ()) Q) (hl : Listed i ⟨f, info⟩ := by simp [Listed, allowedCauses]) :
    Meets i (require c f info >>= k) Q :=
  meets_bind ⟨fun _ he => (require_eq_error.1 he).2 ▸ hl, fun _ hok => h (require_eq_ok.1 hok)⟩

theorem meets_written {r : Option α} {k : α → Except Raised β}
    (h : ∀ a, r = some a → Meets i (k a) Q)
    (hl : Listed i ⟨.unwritten, 0#64⟩ := by simp [Listed, allowedCauses]) :
    Meets i (written r >>= k) Q :=
  meets_bind ⟨fun _ he => (written_eq_error.1 he).2 ▸ hl, fun a hok => h a (written_eq_ok.1 hok)⟩

theorem meets_goodRegs {l : List Nat} {k : Unit → Except Raised β} (h : (∀ m ∈ l, m < 8) → Meets i (k ()) Q)
    (hl : Listed i ⟨.badRegister, 0#64⟩ := by simp [Listed, allowedCauses]) :
    Meets i (goodRegs l >>= k) Q :=
  meets_require h hl

theorem meets_sourceMatrix {m : Nat} {k : Mat → Except Raised β}
    (h : ∀ A, matrixReg m s = some A → Meets i (k A) Q)
    (hl : Listed i ⟨.unwritten, 0#64⟩ := by simp [Listed, allowedCauses]) :
    Meets i (sourceMatrix m s >>= k) Q :=
  meets_written h hl

theorem meets_modulus {k : Int → Except Raised β}
    (h : ∀ n, s.modReg = some n → Meets i (k (zext64 n)) Q)
    (hl : Listed i ⟨.unwritten, 0#64⟩ := by simp [Listed, allowedCauses]) :
    Meets i (modulus s >>= k) Q :=
  meets_bind (meets_written (fun n hn => meets_pure (h n hn)) hl)

theorem meets_packedDin {w : Nat} {k : BitVec w → Except Raised β} (h : ∀ x, Meets i (k x) Q)
    (hl : Listed i ⟨.operandRange, 0#64⟩ := by simp [Listed, allowedCauses]) :
    Meets i (packedDin w s >>= k) Q :=
  meets_bind (meets_require (fun _ => meets_pure (h _)) hl)

/-- The end of a command (R53): the effect its computation has, or the entry of a listed fault. -/
theorem effect_of_conclude {r : Except Raised State} (h : conclude (encode i) s r = .next t)
    (hr : Meets i r (Effect i s)) : Effect i s t := by
  obtain ⟨u, rfl, -⟩ | ⟨f, rfl, -⟩ := conclude_cases (encode i) s r
  · cases h
    exact hr.2 _ rfl
  · cases h
    exact .fault (hr.1 f rfl)

end Meets

/-! Shapes of matrices that a command may store (R12). -/

theorem rows_range_of_wf {A : Mat} (h : A.wf) : 1 ≤ A.rows ∧ A.rows ≤ 8 := ⟨h.1, h.2.1⟩

theorem cols_range_of_wf {A : Mat} (h : A.wf) : 1 ≤ A.cols ∧ A.cols ≤ 8 := ⟨h.2.2.1, h.2.2.2.1⟩

/-! The effect of each command. -/

section Effects

variable {s t : State} {rd ra rb a b : Nat}

theorem execSetmod_effect (h : execSetmod s = .next t) : Effect .setmod s t :=
  effect_of_conclude h <| meets_require fun hn => meets_pure (.modulus rfl hn)

theorem execGetmod_effect (h : execGetmod s = .next t) : Effect .getmod s t :=
  effect_of_conclude h <| meets_written fun _ _ => meets_pure (.dout rfl)

theorem execHldh_effect (h : execHldh s = .next t) : Effect .hldh s t :=
  effect_of_conclude h <| meets_packedDin fun _ => meets_pure (.parity rfl)

theorem execHldc_effect (h : execHldc s = .next t) : Effect .hldc s t :=
  effect_of_conclude h <| meets_packedDin fun _ => meets_pure (.generator rfl)

theorem execHldr_effect (h : execHldr s = .next t) : Effect .hldr s t :=
  effect_of_conclude h <| meets_packedDin fun _ => meets_pure (.decoder rfl)

theorem execHldv_effect (h : execHldv s = .next t) : Effect .hldv s t :=
  effect_of_conclude h <| meets_packedDin fun _ => meets_pure (.block (.inl rfl))

theorem execHldu_effect (h : execHldu s = .next t) : Effect .hldu s t :=
  effect_of_conclude h <| meets_packedDin fun _ => meets_pure (.codeword rfl)

theorem execHrd_effect (h : execHrd a s = .next t) : Effect (.hrd a) s t :=
  effect_of_conclude h <| meets_require fun _ => meets_written fun _ _ => meets_pure (.dout rfl)

theorem execHflip_effect (h : execHflip a s = .next t) : Effect (.hflip a) s t :=
  effect_of_conclude h <| meets_written fun _ _ => meets_require fun _ => meets_pure (.codeword rfl)

theorem execHenc_effect (h : execHenc s = .next t) : Effect .henc s t :=
  effect_of_conclude h <| meets_written fun _ _ => meets_written fun _ _ => meets_pure (.codeword rfl)

theorem execHsyn_effect (h : execHsyn s = .next t) : Effect .hsyn s t :=
  effect_of_conclude h <| meets_written fun _ hH => meets_written fun _ hu =>
    meets_pure (.syndrome rfl hH hu)

theorem execHloc_effect (h : execHloc s = .next t) : Effect .hloc s t :=
  effect_of_conclude h <| meets_written fun _ hx => meets_pure (.location rfl hx)

theorem execHcor_effect (h : execHcor s = .next t) : Effect .hcor s t := by
  refine effect_of_conclude h (meets_written fun l _ => ?_)
  split
  · exact meets_written fun _ _ => meets_pure (.codeword rfl)
  · exact meets_pure (.unchanged (.inr rfl))

theorem execHprj_effect (h : execHprj s = .next t) : Effect .hprj s t :=
  effect_of_conclude h <| meets_written fun _ _ => meets_written fun _ _ => meets_pure (.block (.inr rfl))

theorem execMshape_effect (h : execMshape rd a b s = .next t) : Effect (.mshape rd a b) s t :=
  effect_of_conclude h <| meets_goodRegs fun _ => meets_require fun ⟨ha, ha', hb, hb'⟩ =>
    meets_pure (.matrix rfl fun _ => buildMatrix_wf _ ⟨ha, ha'⟩ ⟨hb, hb'⟩)

theorem execMst_effect (h : execMst rd a b s = .next t) : Effect (.mst rd a b) s t :=
  effect_of_conclude h <| meets_goodRegs fun _ => meets_sourceMatrix fun A hA => meets_require fun _ =>
    meets_pure <| .matrix rfl fun hs =>
      have hwf := hs.matrices rd A hA
      buildMatrix_wf _ (rows_range_of_wf hwf) (cols_range_of_wf hwf)

theorem execMld_effect (h : execMld ra a b s = .next t) : Effect (.mld ra a b) s t :=
  effect_of_conclude h <| meets_goodRegs fun _ => meets_sourceMatrix fun _ _ => meets_require fun _ =>
    meets_pure (.dout rfl)

theorem execMdim_effect (h : execMdim ra s = .next t) : Effect (.mdim ra) s t :=
  effect_of_conclude h <| meets_goodRegs fun _ => meets_sourceMatrix fun _ _ => meets_pure (.dout rfl)

theorem execMmul_effect (h : execMmul rd ra rb s = .next t) : Effect (.mmul rd ra rb) s t :=
  effect_of_conclude h <| meets_goodRegs fun _ => meets_sourceMatrix fun A hA =>
    meets_sourceMatrix fun B hB => meets_require fun _ => meets_require fun _ =>
      meets_pure <| .matrix rfl fun hs =>
        buildMatrix_wf _ (rows_range_of_wf (hs.matrices ra A hA)) (cols_range_of_wf (hs.matrices rb B hB))

theorem execMred_effect (h : execMred rd ra s = .next t) : Effect (.mred rd ra) s t :=
  effect_of_conclude h <| meets_goodRegs fun _ => meets_sourceMatrix fun A hA => meets_modulus fun _ _ =>
    meets_pure <| .matrix rfl fun hs =>
      have hwf := hs.matrices ra A hA
      buildMatrix_wf _ (rows_range_of_wf hwf) (cols_range_of_wf hwf)

theorem execMtrn_effect (h : execMtrn rd ra s = .next t) : Effect (.mtrn rd ra) s t :=
  effect_of_conclude h <| meets_goodRegs fun _ => meets_sourceMatrix fun A hA =>
    meets_pure <| .matrix rfl fun hs =>
      have hwf := hs.matrices ra A hA
      buildMatrix_wf _ (cols_range_of_wf hwf) (rows_range_of_wf hwf)

theorem execMdet_effect (h : execMdet ra s = .next t) : Effect (.mdet ra) s t :=
  effect_of_conclude h <| meets_goodRegs fun _ => meets_sourceMatrix fun _ _ => meets_modulus fun _ _ =>
    meets_require fun _ => meets_pure (.dout rfl)

theorem execMinv_effect (h : execMinv rd ra s = .next t) : Effect (.minv rd ra) s t :=
  effect_of_conclude h <| meets_goodRegs fun _ => meets_sourceMatrix fun A hA => meets_modulus fun _ _ =>
    meets_require fun _ => meets_require fun _ => meets_pure <| .matrix rfl fun hs =>
      have hrows := rows_range_of_wf (hs.matrices ra A hA)
      buildMatrix_wf _ hrows hrows

theorem execMchk_effect (h : execMchk ra s = .next t) : Effect (.mchk ra) s t :=
  effect_of_conclude h <| meets_goodRegs fun _ => meets_sourceMatrix fun _ _ => meets_modulus fun _ _ =>
    meets_require fun _ => meets_require fun _ => meets_pure (.dout rfl)

theorem execMzt_effect (h : execMzt ra s = .next t) : Effect (.mzt ra) s t :=
  effect_of_conclude h <| meets_goodRegs fun _ => meets_sourceMatrix fun _ _ => meets_pure (.dout rfl)

/-- What executing a command can do, for every command and every state. -/
theorem exec_effect {i : Instr} (h : exec i s = .next t) : Effect i s t := by
  cases i with
  | nop => cases h; exact .unchanged (.inl rfl)
  | clrf => cases h; exact .clear rfl
  | setmod => exact execSetmod_effect h
  | getmod => exact execGetmod_effect h
  | hldh => exact execHldh_effect h
  | hldc => exact execHldc_effect h
  | hldr => exact execHldr_effect h
  | hldv => exact execHldv_effect h
  | hldu => exact execHldu_effect h
  | hrd => exact execHrd_effect h
  | hflip => exact execHflip_effect h
  | henc => exact execHenc_effect h
  | hsyn => exact execHsyn_effect h
  | hloc => exact execHloc_effect h
  | hcor => exact execHcor_effect h
  | hprj => exact execHprj_effect h
  | mshape => exact execMshape_effect h
  | mst => exact execMst_effect h
  | mld => exact execMld_effect h
  | mdim => exact execMdim_effect h
  | mmul => exact execMmul_effect h
  | mred => exact execMred_effect h
  | mtrn => exact execMtrn_effect h
  | mdet => exact execMdet_effect h
  | minv => exact execMinv_effect h
  | mchk => exact execMchk_effect h
  | mzt => exact execMzt_effect h

end Effects

end Sys2Proof.Machine
end

section
/-! PROOFS. What a step can do: the accesses of the host, case by case (R32, R33, R38, R53, R104, R113). -/

namespace Sys2Proof.Machine

variable {s t : State}

/-- What a value written to CMD can do, with a fault recorded or not (R47, R53, R104). -/
theorem executeCommand_cases {w : Word} (h : executeCommand w s = .next t) :
    t = s ∨ t = takeFault ⟨.illegalCommand, 0#64⟩ w s ∨ ∃ i, exec i s = .next t := by
  unfold executeCommand at h
  split at h
  · split at h
    · exact .inr (.inr ⟨.clrf, h⟩)
    · cases h
      exact .inl rfl
  · split at h
    · exact .inr (.inr ⟨_, h⟩)
    · cases h
      exact .inr (.inl rfl)

theorem hostRead_next {off : Int} {width : Nat} (h : hostRead off width s = .next t) :
    ∃ v, t = returnRead v s := by
  unfold hostRead at h
  split at h
  · cases h
    exact ⟨_, rfl⟩
  · cases h

theorem hostWrite_cases {off : Int} {width : Nat} {v : Word} (h : hostWrite off width v s = .next t) :
    t = s ∨ t = writeDin v s ∨ executeCommand v s = .next t := by
  unfold hostWrite at h
  split at h
  case h_1 => exact .inr (.inr h)
  case h_2 => cases h; exact .inr (.inl rfl)
  case h_7 => cases h
  all_goals
    cases h
    exact .inl rfl

/-- What the service of one access can do: only a Reset resets, and a write to CMD either runs a command, is
dropped, or is the fault entry of an illegal value. -/
theorem serve_cases {a : HostAccess} (h : serve a s = .next t) :
    (a = .reset ∧ t = resetUnit s) ∨ t = s ∨ (∃ v, t = returnRead v s) ∨ (∃ v, t = writeDin v s) ∨
      (∃ w, t = takeFault ⟨.illegalCommand, 0#64⟩ w s) ∨ ∃ i, exec i s = .next t := by
  cases a with
  | reset => cases h; exact .inl ⟨rfl, rfl⟩
  | read off width => exact .inr (.inr (.inl (hostRead_next h)))
  | write off width v =>
    obtain rfl | rfl | hcmd := hostWrite_cases h
    · exact .inr (.inl rfl)
    · exact .inr (.inr (.inr (.inl ⟨v, rfl⟩)))
    · obtain rfl | rfl | hexec := executeCommand_cases hcmd
      · exact .inr (.inl rfl)
      · exact .inr (.inr (.inr (.inr (.inl ⟨v, rfl⟩))))
      · exact .inr (.inr (.inr (.inr (.inr hexec))))

/-- A step changes nothing while no access waits, and else serves the first one (R38, R107). -/
theorem step_cases (h : step s = .next t) :
    t = s ∨ ∃ a rest, s.accesses = a :: rest ∧ serve a { s with accesses := rest } = .next t := by
  unfold step serveNext at h
  split at h
  case h_1 => cases h; exact .inl rfl
  case h_2 a rest ha => exact .inr ⟨a, rest, ha, h⟩

end Sys2Proof.Machine
end

section
/-! PROOFS. The invariant is kept by every step (R12, R14, R21, R23, R24). -/

namespace Sys2Proof.Machine

variable {s t : State}

theorem inv_reset : Inv State.reset :=
  ⟨by simp, by simp [State.reset], by simp [State.reset], by simp [State.reset], fun _ => ⟨rfl, rfl, rfl⟩,
    by simp [State.reset]⟩

theorem inv_resetUnit (s : State) : Inv (resetUnit s) :=
  ⟨inv_reset.1, inv_reset.2, inv_reset.3, inv_reset.4, inv_reset.5, inv_reset.6⟩

/-- Whatever a command does keeps the invariant. -/
theorem Effect.inv {i : Instr} (h : Effect i s t) (hs : Inv s) : Inv t := by
  cases h with
  | fault hf => exact inv_takeFault hs _ _ hf.2
  | unchanged => exact hs
  | clear => exact inv_clearFault hs
  | modulus _ hn => exact inv_writeMod hs hn
  | dout => exact inv_writeDout hs _
  | matrix _ hA => exact inv_writeMatrix hs _ (hA hs)
  | parity => exact inv_writeH hs _
  | generator => exact inv_writeC hs _
  | decoder => exact inv_writeR hs _
  | block => exact inv_writeV hs _
  | codeword => exact inv_writeU hs _
  | syndrome _ hH hu => exact inv_writeS hs hH hu
  | location _ hx => exact inv_writeLoc hs hx

theorem serve_inv {a : HostAccess} (h : serve a s = .next t) (hs : Inv s) : Inv t := by
  obtain ⟨-, rfl⟩ | rfl | ⟨v, rfl⟩ | ⟨v, rfl⟩ | ⟨w, rfl⟩ | ⟨i, hexec⟩ := serve_cases h
  · exact inv_resetUnit s
  · exact hs
  · exact inv_returnRead hs v
  · exact inv_writeDin hs v
  · exact inv_takeFault hs _ w fun _ => rfl
  · exact (exec_effect hexec).inv hs

/-- Settles O3: a step is idle or serves one access, and each thing that an access can do keeps the invariant. -/
theorem invKeptByEveryStep : Obligations.InvKeptByEveryStep := by
  intro s t hs h
  obtain rfl | ⟨a, rest, -, hserve⟩ := step_cases h
  · exact hs
  · exact serve_inv hserve (inv_accesses hs rest)

end Sys2Proof.Machine
end

section
/-! PROOFS. What commands and steps leave alone, and the registers' own reading rules (R10, R12, R20, R22). -/

namespace Sys2Proof.Machine

variable {s t : State}

/-- Settles O22, by the cases of `Effect`: each writes one register, and says which commands may. -/
theorem registersChangeOnlyByTheirCommands : Obligations.RegistersChangeOnlyByTheirCommands := by
  intro i s t h
  cases exec_effect h with
  | fault | unchanged => simp
  | clear hi | modulus hi | parity hi | generator hi | decoder hi => simp [hi]
  | dout hi | codeword hi => simp [hi]
  | matrix hi =>
    refine ⟨rfl, rfl, rfl, fun m hm => matrixReg_writeMatrix_of_ne s _ ?_, ?_⟩
    · rintro rfl
      exact hm hi
    · simp
  | block hi => obtain rfl | rfl := hi <;> simp
  | syndrome hi | location hi => simp [hi]

/-- Every valid bit of M, MOD, H, C, R, V and U that is set in `s` is set in `t` (R20). -/
def ValidBitsKept (s t : State) : Prop :=
  (∀ k, (matrixReg k s).isSome → (matrixReg k t).isSome) ∧
    (s.modReg.isSome → t.modReg.isSome) ∧ (s.hReg.isSome → t.hReg.isSome) ∧
    (s.cReg.isSome → t.cReg.isSome) ∧ (s.rReg.isSome → t.rReg.isSome) ∧
    (s.vReg.isSome → t.vReg.isSome) ∧ (s.uReg.isSome → t.uReg.isSome)

theorem validBitsKept_refl (s : State) : ValidBitsKept s s := by
  simp [ValidBitsKept]

theorem validBitsKept_writeMatrix (s : State) (k : Nat) (A : Mat) : ValidBitsKept s (writeMatrix k A s) := by
  refine ⟨fun m hm => ?_, by simp⟩
  rw [matrixReg_writeMatrix]
  split
  · rfl
  · exact hm

/-- No command clears one of these valid bits: what it writes to such a register is a value. -/
theorem Effect.validBitsKept {i : Instr} (h : Effect i s t) : ValidBitsKept s t := by
  cases h with
  | matrix => exact validBitsKept_writeMatrix s _ _
  | fault | unchanged | clear | modulus | dout => simp [ValidBitsKept]
  | parity | generator | decoder | block | codeword | syndrome | location => simp [ValidBitsKept]

theorem serve_validBitsKept {a : HostAccess} (h : serve a s = .next t) (ha : a ≠ .reset) :
    ValidBitsKept s t := by
  obtain ⟨hreset, -⟩ | rfl | ⟨v, rfl⟩ | ⟨v, rfl⟩ | ⟨w, rfl⟩ | ⟨i, hexec⟩ := serve_cases h
  · exact absurd hreset ha
  · exact validBitsKept_refl t
  · simp [ValidBitsKept]
  · simp [ValidBitsKept]
  · simp [ValidBitsKept]
  · exact (exec_effect hexec).validBitsKept

/-- Settles O23: a step is idle or serves an access other than Reset, and none of these clears a valid bit. -/
theorem validBitsAreClearedOnlyByReset : Obligations.ValidBitsAreClearedOnlyByReset := by
  intro s t h hreset
  obtain rfl | ⟨a, rest, ha, hserve⟩ := step_cases h
  · exact validBitsKept_refl t
  · have hkept : ValidBitsKept { s with accesses := rest } t :=
      serve_validBitsKept hserve fun hr => hreset rest (hr ▸ ha)
    exact hkept

theorem getLsbD_status (s : State) (b : Nat) : (status s).getLsbD b = (decide (b < 64) && statusBit s b) :=
  getLsbD_bitVector_eq 64 (statusBit s) b

theorem statusBit_fcode (s : State) {b : Nat} (hb : b < 8) : statusBit s (8 + b) = s.fcode.getLsbD b := by
  unfold statusBit
  iterate 8 rw [if_neg (by omega)]
  rw [if_pos (by omega), Nat.add_sub_cancel_left]

theorem statusBit_matrixReg (s : State) {k : Nat} (hk : k < 8) :
    statusBit s (16 + k) = (matrixReg k s).isSome := by
  unfold statusBit
  iterate 9 rw [if_neg (by omega)]
  rw [if_pos (by omega), Nat.add_sub_cancel_left]

theorem statusBit_high (s : State) {b : Nat} (hb : 25 ≤ b) : statusBit s b = false := by
  unfold statusBit
  iterate 11 rw [if_neg (by omega)]

/-- A host write to STATUS is ignored (R22, R33). -/
theorem hostWrite_status (v : Word) (s : State) : hostWrite (windowOffset .status) 8 v s = .next s := by
  rw [hostWrite, checkAccess_windowOffset]

/-- Settles O15, row by row of the table of R22. -/
theorem statusBits : Obligations.StatusBits := by
  intro s
  simp only [getLsbD_status]
  refine ⟨rfl, rfl, rfl, rfl, rfl, rfl, rfl, rfl, fun b hb => ?_, fun k hk => ?_, rfl, fun b hb => ?_,
    fun v => hostWrite_status v s⟩
  · rw [statusBit_fcode s hb, decide_eq_true (by omega), Bool.true_and]
  · rw [statusBit_matrixReg s hk, decide_eq_true (by omega), Bool.true_and]
  · rw [statusBit_high s hb, Bool.and_false]

/-- Settles O24, by the reading rules of a matrix register after a write. -/
theorem matrixRegisterReadAfterWrite : Obligations.MatrixRegisterReadAfterWrite := by
  intro s k A hk
  exact ⟨matrixReg_writeMatrix_self s k A hk, fun m hm => matrixReg_writeMatrix_of_ne s A hm, rfl⟩

end Sys2Proof.Machine
end

section
/-! PROOFS. The host's window (R31 to R37): which accesses it serves, what a served read returns and a served
write does, and where its bytes lie. -/

namespace Sys2Proof.Machine

variable {s : State} {off : Int} {width : Nat} {v : Word} {rest : List HostAccess}

/-- While an access waits, a step is the service of the first one (R38). -/
theorem step_eq_serve {a : HostAccess} (h : s.accesses = a :: rest) :
    step s = serve a { s with accesses := rest } := by
  rw [step, serveNext, h]

/-! Every command answers a next state, so that only the window can refuse (R102). -/

theorem conclude_next (w : Word) (s : State) (r : Except Raised State) : ∃ t, conclude w s r = .next t := by
  obtain ⟨t, -, h⟩ | ⟨f, -, h⟩ := conclude_cases w s r
  · exact ⟨t, h⟩
  · exact ⟨_, h⟩

theorem exec_next (i : Instr) (s : State) : ∃ t, exec i s = .next t := by
  cases i with
  | nop | clrf => exact ⟨_, rfl⟩
  | _ => exact conclude_next _ s _

theorem executeCommand_next (w : Word) (s : State) : ∃ t, executeCommand w s = .next t := by
  unfold executeCommand
  split
  · split
    · exact exec_next .clrf s
    · exact ⟨s, rfl⟩
  · split
    · exact exec_next _ s
    · exact ⟨_, rfl⟩

/-! Which accesses the window refuses (R34, R37). -/

theorem hostRead_eq_refused {e : Refusal} :
    hostRead off width s = .refused e ↔ checkAccess off width = .error e := by
  unfold hostRead
  cases checkAccess off width <;> simp

theorem hostWrite_eq_refused {e : Refusal} :
    hostWrite off width v s = .refused e ↔ checkAccess off width = .error e := by
  unfold hostWrite
  cases checkAccess off width with
  | error e' => simp
  | ok r =>
    cases r with
    | cmd =>
      obtain ⟨t, ht⟩ := executeCommand_next v s
      simp [ht]
    | din | dout | status | fcmd | finfo => simp

/-- The offsets of the table of R31: the aligned ones of the window but for the two reserved ones (R37). -/
theorem exists_windowOffset_iff :
    (∃ r, off = windowOffset r) ↔ off % 8 = 0 ∧ 0 ≤ off ∧ off < 0x40 ∧ off ≠ 0x30 ∧ off ≠ 0x38 := by
  constructor
  · rintro ⟨r, rfl⟩
    cases r <;> decide
  · intro h
    have hoff : off = 0x00 ∨ off = 0x08 ∨ off = 0x10 ∨ off = 0x18 ∨ off = 0x20 ∨ off = 0x28 := by omega
    obtain h | h | h | h | h | h := hoff
    · exact ⟨.cmd, h⟩
    · exact ⟨.din, h⟩
    · exact ⟨.dout, h⟩
    · exact ⟨.status, h⟩
    · exact ⟨.fcmd, h⟩
    · exact ⟨.finfo, h⟩

theorem checkAccess_eq_ok {r : WindowReg} :
    checkAccess off width = .ok r ↔ width = 8 ∧ off = windowOffset r := by
  refine ⟨checkAccess_ok, ?_⟩
  rintro ⟨rfl, rfl⟩
  exact checkAccess_windowOffset r

theorem exists_checkAccess_eq_error :
    (∃ e, checkAccess off width = .error e) ↔ ¬(width = 8 ∧ ∃ r, off = windowOffset r) := by
  simp only [← exists_and_left, ← checkAccess_eq_ok]
  cases checkAccess off width <;> simp

/-- Settles O13: a step refuses an access exactly where `checkAccess` does, since no command is refused. -/
theorem undefinedAccessesAreRefused : Obligations.UndefinedAccessesAreRefused := by
  intro s off width v rest h
  have hstep (e : Refusal) : step s = .refused e ↔ checkAccess off width = .error e := by
    obtain hread | hwrite := h
    · rw [step_eq_serve hread]
      exact hostRead_eq_refused
    · rw [step_eq_serve hwrite]
      exact hostWrite_eq_refused
  simp only [hstep, exists_checkAccess_eq_error, exists_windowOffset_iff]
  omega

/-! What the served accesses do (R32, R33). -/

theorem step_read (r : WindowReg) (h : s.accesses = .read (windowOffset r) 8 :: rest) :
    step s = .next { s with accesses := rest, reads := s.reads ++ [windowValue r s] } := by
  rw [step_eq_serve h, serve, hostRead, checkAccess_windowOffset]
  cases r <;> rfl

theorem step_write_din (h : s.accesses = .write (windowOffset .din) 8 v :: rest) :
    step s = .next { s with accesses := rest, din := v } := by
  rw [step_eq_serve h, serve, hostWrite, checkAccess_windowOffset]
  rfl

theorem step_write_readOnly {r : WindowReg} (hcmd : r ≠ .cmd) (hdin : r ≠ .din)
    (h : s.accesses = .write (windowOffset r) 8 v :: rest) : step s = .next { s with accesses := rest } := by
  rw [step_eq_serve h, serve, hostWrite, checkAccess_windowOffset]
  cases r with
  | cmd => exact absurd rfl hcmd
  | din => exact absurd rfl hdin
  | dout | status | fcmd | finfo => rfl

/-- Settles O11, row by row of the table of R31. -/
theorem hostReadReturnsTheRegister : Obligations.HostReadReturnsTheRegister := by
  rintro s off rest h v (⟨rfl, rfl⟩ | ⟨rfl, rfl⟩ | ⟨rfl, rfl⟩ | ⟨rfl, rfl⟩ | ⟨rfl, rfl⟩ | ⟨rfl, rfl⟩)
  · exact step_read .cmd h
  · exact step_read .din h
  · exact step_read .dout h
  · exact step_read .status h
  · exact step_read .fcmd h
  · exact step_read .finfo h

/-- Settles O12, by the three kinds of register: DIN, the four that only the unit writes, and CMD. -/
theorem hostWriteEffects : Obligations.HostWriteEffects := by
  refine fun s off v rest h => ⟨?_, ?_, ?_⟩
  · rintro rfl
    exact step_write_din h
  · rintro (rfl | rfl | rfl | rfl)
    · exact step_write_readOnly (r := .dout) (by decide) (by decide) h
    · exact step_write_readOnly (r := .status) (by decide) (by decide) h
    · exact step_write_readOnly (r := .fcmd) (by decide) (by decide) h
    · exact step_write_readOnly (r := .finfo) (by decide) (by decide) h
  · rintro rfl
    exact step_write_cmd h

/-! The window in bytes (R35). -/

theorem toNat_registerByte (v : Word) (k : Nat) : (registerByte v k).toNat = v.toNat / 256 ^ k % 256 := by
  rw [registerByte, BitVec.extractLsb'_toNat, Nat.shiftRight_eq_div_pow, pow_mul]
  rfl

/-- The first `n` bytes of a register are its value modulo `256 ^ n`. -/
theorem sum_registerByte (v : Word) (n : Nat) :
    ∑ k ∈ Finset.range n, (registerByte v k).toNat * 256 ^ k = v.toNat % 256 ^ n := by
  induction n with
  | zero => simp [Nat.mod_one]
  | succ n ih => rw [Finset.sum_range_succ, ih, toNat_registerByte, Nat.mod_pow_succ, mul_comm]

theorem offsetOf_byteAddress (r : WindowReg) (k : Nat) : offsetOf (byteAddress r k) = windowOffset r + k := by
  rw [offsetOf, byteAddress, add_assoc, add_sub_cancel_left]

/-- Settles O16: all eight bytes are the value modulo `2 ^ 64`, and the base cancels in an offset. -/
theorem windowBytesAreLittleEndian : Obligations.WindowBytesAreLittleEndian := by
  refine fun v => ⟨?_, offsetOf_byteAddress⟩
  rw [sum_registerByte]
  exact (Nat.mod_eq_of_lt v.isLt).symm

end Sys2Proof.Machine
end

section
/-! PROOFS. The opcode map (R42 to R44): which words a row accepts, that at most one row accepts a word, and that
the encoder gives back the word of which a row makes its command. -/

namespace Sys2Proof

/-- The opcode byte of a row (R42, R44). -/
def Row.opcode (r : Row) : BitVec 8 := r.pattern.extractLsb' 24 8

/-- The shape of every row of R44: the mask covers the opcode and `z`, it covers each operand field whole or not
at all, and only the opcode of the match may have a 1. -/
def Row.Fieldwise (r : Row) : Prop :=
  r.mask.extractLsb' 24 8 = BitVec.allOnes 8 ∧
    r.mask.extractLsb' 0 4 = BitVec.allOnes 4 ∧ r.pattern.extractLsb' 0 4 = 0#4 ∧
    ∀ p ∈ [20, 16, 12, 8, 4], r.pattern.extractLsb' p 4 = 0#4 ∧
      (r.mask.extractLsb' p 4 = 0#4 ∨ r.mask.extractLsb' p 4 = BitVec.allOnes 4)

theorem fieldwise_of_mem : ∀ r ∈ opcodeTable, r.Fieldwise := by
  unfold Row.Fieldwise
  decide

theorem nodup_opcodes : (opcodeTable.map Row.opcode).Nodup := by decide

/-! What a row and the encoder say of a command's fields. -/

/-- The operand that a row takes from the field at bit `p` with the number `n`: 0 where the mask covers the
field, which the row then does not use (R44). -/
def Row.operand (r : Row) (p n : Nat) : Nat := if r.mask.extractLsb' p 4 = 0#4 then n else 0

/-- The encoder, row by row: a row's command is encoded with the row's opcode and operands. -/
theorem encode_build {r : Row} (hr : r ∈ opcodeTable) (f : Fields) :
    encode (r.build f) = command r.opcode (r.operand 20 f.rd) (r.operand 16 f.ra) (r.operand 12 f.rb)
      (r.operand 8 f.i) (r.operand 4 f.j) := by
  fin_cases hr <;> rfl

theorem wellFormed_build {r : Row} (hr : r ∈ opcodeTable) {f : Fields} (hrd : f.rd < 16) (hra : f.ra < 16)
    (hrb : f.rb < 16) (hi : f.i < 16) (hj : f.j < 16) : (r.build f).wellFormed = true := by
  fin_cases hr <;> simp [Instr.wellFormed, fitsField, hrd, hra, hrb, hi, hj]

/-! Accepted words. -/

theorem Row.accepts_iff {r : Row} {c : BitVec 32} : r.accepts c = true ↔ c &&& r.mask = r.pattern :=
  beq_iff_eq

/-- Where the mask is all ones, an accepted word has the bits of the match (R43). -/
theorem Row.extractLsb'_of_accepts {r : Row} {c : BitVec 32} (hc : r.accepts c = true) {p n : Nat}
    (hmask : r.mask.extractLsb' p n = BitVec.allOnes n) : c.extractLsb' p n = r.pattern.extractLsb' p n := by
  rw [← Row.accepts_iff.1 hc, BitVec.extractLsb'_and, hmask, BitVec.and_allOnes]

/-- A word is its fields, one after the other (R42). -/
theorem append_fields (c : BitVec 32) :
    c.extractLsb' 24 8 ++ c.extractLsb' 20 4 ++ c.extractLsb' 16 4 ++ c.extractLsb' 12 4
      ++ c.extractLsb' 8 4 ++ c.extractLsb' 4 4 ++ c.extractLsb' 0 4 = c := by
  simp (disch := omega) only [BitVec.extractLsb'_append_extractLsb'_eq_extractLsb']
  exact BitVec.extractLsb'_eq_self

section Accepted

variable {r : Row} (hr : r ∈ opcodeTable) {c : BitVec 32} (hc : r.accepts c = true)
include hr hc

theorem opcode_of_accepts : c.extractLsb' 24 8 = r.opcode := by
  obtain ⟨hmask, -⟩ := fieldwise_of_mem r hr
  exact Row.extractLsb'_of_accepts hc hmask

theorem zeroField_of_accepts : c.extractLsb' 0 4 = 0#4 := by
  obtain ⟨-, hmask, hpattern, -⟩ := fieldwise_of_mem r hr
  rw [Row.extractLsb'_of_accepts hc hmask, hpattern]

/-- A field that the row does not use is 0 in an accepted word, so that the operand is the field itself. -/
theorem operand_of_accepts {p : Nat} (hp : p ∈ [20, 16, 12, 8, 4]) :
    BitVec.ofNat 4 (r.operand p (c.extractLsb' p 4).toNat) = c.extractLsb' p 4 := by
  obtain ⟨-, -, -, hfields⟩ := fieldwise_of_mem r hr
  obtain ⟨hpattern, hmask | hmask⟩ := hfields p hp
  · rw [Row.operand, if_pos hmask, BitVec.ofNat_toNat, BitVec.setWidth_eq]
  · rw [Row.extractLsb'_of_accepts hc hmask, hpattern, Row.operand, if_neg (by rw [hmask]; decide)]

/-- The command that a row makes of an accepted word is encoded as that word. -/
theorem encode_build_of_accepts : encode (r.build (fieldsOf c)) = 0#32 ++ c := by
  have hop := (opcode_of_accepts hr hc).symm
  have hz := (zeroField_of_accepts hr hc).symm
  have hfield {p : Nat} (hp : p ∈ [20, 16, 12, 8, 4]) := operand_of_accepts hr hc hp
  rw [encode_build hr, command, fieldsOf, hop, hz, hfield (by simp), hfield (by simp), hfield (by simp),
    hfield (by simp), hfield (by simp), append_fields]

end Accepted

theorem wellFormed_build_fieldsOf {r : Row} (hr : r ∈ opcodeTable) (c : BitVec 32) :
    (r.build (fieldsOf c)).wellFormed = true :=
  wellFormed_build hr (BitVec.isLt _) (BitVec.isLt _) (BitVec.isLt _) (BitVec.isLt _) (BitVec.isLt _)

/-- At most one row accepts a word: the opcodes of the rows are distinct (R43). -/
theorem row_unique_of_accepts {r q : Row} {c : BitVec 32} (hr : r ∈ opcodeTable) (hq : q ∈ opcodeTable)
    (hrc : r.accepts c = true) (hqc : q.accepts c = true) : r = q := by
  refine List.inj_on_of_nodup_map nodup_opcodes hr hq ?_
  rw [← opcode_of_accepts hr hrc, ← opcode_of_accepts hq hqc]

theorem place_unique_of_accepts {k l : Nat} {r q : Row} {c : BitVec 32} (hk : opcodeTable[k]? = some r)
    (hl : opcodeTable[l]? = some q) (hrc : r.accepts c = true) (hqc : q.accepts c = true) : k = l := by
  obtain rfl := row_unique_of_accepts (List.mem_of_getElem? hk) (List.mem_of_getElem? hl) hrc hqc
  obtain ⟨hlt, -⟩ := List.getElem?_eq_some_iff.1 hk
  exact (List.getElem?_inj hlt nodup_opcodes.of_map).1 (hk.trans hl.symm)

theorem findRow_eq_some_iff {c : BitVec 32} {r : Row} :
    findRow c = some r ↔ r ∈ opcodeTable ∧ r.accepts c = true := by
  have found {q : Row} (h : findRow c = some q) : q ∈ opcodeTable ∧ q.accepts c = true :=
    ⟨List.mem_of_find?_eq_some h, List.find?_some (p := fun q : Row => q.accepts c) h⟩
  refine ⟨found, fun ⟨hr, hrc⟩ => ?_⟩
  have hsome : (findRow c).isSome := List.find?_isSome.2 ⟨r, hr, hrc⟩
  obtain ⟨q, h⟩ := Option.isSome_iff_exists.1 hsome
  obtain ⟨hq, hqc⟩ := found h
  rw [row_unique_of_accepts hr hq hrc hqc]
  exact h

/-- A value decodes to the command that a row of the map makes of it, and to nothing else (R43). -/
theorem decode_eq_ok_iff {w : Word} {i : Instr} :
    decode w = .ok i ↔ w.extractLsb' 32 32 = 0#32 ∧ ∃ r ∈ opcodeTable,
      r.accepts (w.extractLsb' 0 32) = true ∧ r.build (fieldsOf (w.extractLsb' 0 32)) = i := by
  simp only [← and_assoc, ← findRow_eq_some_iff, decode]
  by_cases hhigh : w.extractLsb' 32 32 = 0#32
  · cases findRow (w.extractLsb' 0 32) <;> simp [hhigh]
  · simp [hhigh]

/-! Encoding and decoding undo each other. -/

/-- Every well-formed command is encoded as a word of its row, by the lemmas of Laws/PerInstr. -/
theorem commandWord (i : Instr) : Laws.CommandWord.Statement i := by
  cases i with
  | nop => exact Laws.CommandWord.nop
  | clrf => exact Laws.CommandWord.clrf
  | setmod => exact Laws.CommandWord.setmod
  | getmod => exact Laws.CommandWord.getmod
  | hldh => exact Laws.CommandWord.hldh
  | hldc => exact Laws.CommandWord.hldc
  | hldr => exact Laws.CommandWord.hldr
  | hldv => exact Laws.CommandWord.hldv
  | hldu => exact Laws.CommandWord.hldu
  | hrd i => exact Laws.CommandWord.hrd i
  | hflip j => exact Laws.CommandWord.hflip j
  | henc => exact Laws.CommandWord.henc
  | hsyn => exact Laws.CommandWord.hsyn
  | hloc => exact Laws.CommandWord.hloc
  | hcor => exact Laws.CommandWord.hcor
  | hprj => exact Laws.CommandWord.hprj
  | mshape rd i j => exact Laws.CommandWord.mshape rd i j
  | mst rd i j => exact Laws.CommandWord.mst rd i j
  | mld ra i j => exact Laws.CommandWord.mld ra i j
  | mdim ra => exact Laws.CommandWord.mdim ra
  | mmul rd ra rb => exact Laws.CommandWord.mmul rd ra rb
  | mred rd ra => exact Laws.CommandWord.mred rd ra
  | mtrn rd ra => exact Laws.CommandWord.mtrn rd ra
  | mdet ra => exact Laws.CommandWord.mdet ra
  | minv rd ra => exact Laws.CommandWord.minv rd ra
  | mchk ra => exact Laws.CommandWord.mchk ra
  | mzt ra => exact Laws.CommandWord.mzt ra

/-- Settles O4: the command's word lies in a row that makes the command of it, and no other row accepts it,
so that `findRow` finds that row. -/
theorem decodeOfEncode : Obligations.DecodeOfEncode := by
  intro i hi
  obtain ⟨hhigh, k, r, hk, hacc, hbuild⟩ := commandWord i hi
  exact decode_eq_ok_iff.2 ⟨hhigh, r, List.mem_of_getElem? hk, hacc, hbuild⟩

/-- Settles O5: an accepted word has no bit outside the opcode and the operands of its row. -/
theorem encodeOfDecode : Obligations.EncodeOfDecode := by
  intro w i h
  obtain ⟨hhigh, r, hr, hacc, rfl⟩ := decode_eq_ok_iff.1 h
  refine ⟨wellFormed_build_fieldsOf hr _, ?_⟩
  rw [encode_build_of_accepts hr hacc, ← hhigh]
  exact BitVec.extractLsb'_append_extractLsb'

/-- Settles O58: appending a field shifts what stands before it, and shifts add up. -/
theorem encodingFormula : Obligations.EncodingFormula := by
  intro op rd ra rb i j hrd hra hrb hi hj
  simp only [command, BitVec.toNat_append, BitVec.toNat_ofNat, Nat.shiftLeft_or_distrib, ← Nat.shiftLeft_add]
  simp [Nat.mod_eq_of_lt, hrd, hra, hrb, hi, hj]

end Sys2Proof
end

section
/-! PROOFS. Which values written to CMD are legal, and what the others do (R43, R47). -/

namespace Sys2Proof.Machine

variable {s : State} {w : Word}

/-- The fields of the command word, as numbers taken from the whole value (R42, R43). -/
theorem fieldsOf_low (w : Word) : fieldsOf (w.extractLsb' 0 32) = {
    op := w.toNat / 2 ^ 24 % 256, rd := w.toNat / 2 ^ 20 % 16, ra := w.toNat / 2 ^ 16 % 16,
    rb := w.toNat / 2 ^ 12 % 16, i := w.toNat / 2 ^ 8 % 16, j := w.toNat / 2 ^ 4 % 16,
    z := w.toNat % 16 } := by
  simp [fieldsOf, Nat.shiftRight_eq_div_pow]

/-- A value is legal when its bits 63:32 are 0 and one place of the opcode map, and no other, accepts it. -/
theorem exists_decode_eq_ok_iff : (∃ i, decode w = .ok i) ↔ w.extractLsb' 32 32 = 0#32 ∧
    ∃! k : Nat, ∃ r, opcodeTable[k]? = some r ∧ w.extractLsb' 0 32 &&& r.mask = r.pattern := by
  simp only [decode_eq_ok_iff, ← Row.accepts_iff]
  constructor
  · rintro ⟨i, hhigh, r, hr, hacc, -⟩
    obtain ⟨k, hk⟩ := List.mem_iff_getElem?.1 hr
    exact ⟨hhigh, k, ⟨r, hk, hacc⟩, fun l ⟨q, hl, hq⟩ => place_unique_of_accepts hl hk hq hacc⟩
  · rintro ⟨hhigh, k, ⟨r, hk, hacc⟩, -⟩
    exact ⟨_, hhigh, r, List.mem_of_getElem? hk, hacc, rfl⟩

/-- A value that is no command is entered as the fault IllegalCommand, whatever makes it illegal (R47). -/
theorem executeCommand_not_legal (hf : s.fault = false) (hw : ¬∃ i, decode w = .ok i) :
    executeCommand w s = .next { s with fault := true, fcode := 1#8, fcmd := w, finfo := 0#64 } := by
  cases h : decode w with
  | ok i => exact absurd ⟨i, h⟩ hw
  | error e => exact executeCommand_illegal hf h

/-- Settles O6: the row by which a legal value decodes is the one row that accepts its low half. -/
theorem legalMeansExactlyOneRow : Obligations.LegalMeansExactlyOneRow := by
  intro w
  refine ⟨exists_decode_eq_ok_iff, fun hw s hf => executeCommand_not_legal hf hw, fun i h => ?_⟩
  obtain ⟨-, r, hr, hacc, hbuild⟩ := decode_eq_ok_iff.1 h
  exact ⟨r, hr, Row.accepts_iff.1 hacc, by rw [← fieldsOf_low, hbuild]⟩

/-- The opcodes that the table of R44 reserves (R47). -/
def ReservedOpcode (op : Nat) : Prop :=
  (0x04 ≤ op ∧ op ≤ 0x0F) ∨ op = 0x17 ∨ (0x1D ≤ op ∧ op ≤ 0x1F) ∨ 0x2B ≤ op

theorem not_reservedOpcode_of_mem : ∀ r ∈ opcodeTable, ¬ReservedOpcode r.opcode.toNat := by
  unfold ReservedOpcode
  decide

/-- Settles O8: a legal value has none of these marks, for its bits are those of a row of the map. -/
theorem illegalValuesRaiseIllegalCommand : Obligations.IllegalValuesRaiseIllegalCommand := by
  intro s w rest hs hf hmark
  rw [step_write_cmd hs]
  refine executeCommand_not_legal (s := { s with accesses := rest }) hf ?_
  rintro ⟨i, h⟩
  obtain ⟨hhigh, r, hr, hacc, -⟩ := decode_eq_ok_iff.1 h
  have hop := opcode_of_accepts hr hacc
  have hz := zeroField_of_accepts hr hacc
  rw [BitVec.extractLsb'_extractLsb'_of_le (by omega)] at hop hz
  obtain hset | hnone | hreserved | hzset := hmark
  · exact hset hhigh
  · exact hnone r hr (Row.accepts_iff.1 hacc)
  · exact not_reservedOpcode_of_mem r hr (hop ▸ hreserved)
  · exact hzset hz

end Sys2Proof.Machine
end

section
/-! PROOFS. MCOPY (R52) as the run of its two transpositions (R86). -/

namespace Sys2Proof.Machine

variable {s : State} {A : Mat}

/-- The transpose of a matrix, as MTRN stores it (R86). -/
def transposed (A : Mat) : Mat := buildMatrix A.cols A.rows fun b a => entry A a b

theorem entry_transposed {a b : Nat} (ha : a < A.rows) (hb : b < A.cols) :
    entry (transposed A) b a = entry A a b :=
  entry_buildMatrix _ hb ha

theorem transposed_transposed (hA : A.full) : transposed (transposed A) = A := by
  refine full_ext (buildMatrix_full ..) hA rfl rfl fun a ha b hb => ?_
  rw [entry_transposed (A := transposed A) hb ha, entry_transposed (A := A) ha hb]

theorem exec_mtrn {rd ra : Nat} (hrd : rd < 8) (hra : ra < 8) (hA : matrixReg ra s = some A) :
    exec (.mtrn rd ra) s = .next (writeMatrix rd (transposed A) s) := by
  rw [exec, execMtrn, goodRegs_ok (by simp [hrd, hra]), sourceMatrix_some hA]
  rfl

/-- The host's access that issues a command (R33, R51). -/
def commandAccess (i : Instr) : HostAccess := .write (windowOffset .cmd) 8 (encode i)

/-- A step whose access issues a well-formed command executes that command (R53). -/
theorem step_commandAccess {i : Instr} (hf : s.fault = false) (hi : i.wellFormed = true)
    (rest : List HostAccess) :
    step { s with accesses := commandAccess i :: rest } = exec i { s with accesses := rest } := by
  rw [step_write_cmd rfl]
  exact executeCommand_legal hf (decodeOfEncode i hi)

theorem step_mtrn {rd ra : Nat} (hf : s.fault = false) (hrd : rd < 8) (hra : ra < 8)
    (hA : matrixReg ra s = some A) (rest : List HostAccess) :
    step { s with accesses := commandAccess (.mtrn rd ra) :: rest } =
      .next (writeMatrix rd (transposed A) { s with accesses := rest }) := by
  rw [step_commandAccess hf (by simp [Instr.wellFormed, fitsField]; omega)]
  exact exec_mtrn hrd hra hA

/-- Settles O59: each of the two steps transposes, and a full matrix transposed twice is the matrix. -/
theorem mcopyCopiesTheRegister : Obligations.McopyCopiesTheRegister := by
  intro s md ma A hf hmd hma hA hfull
  have first := step_mtrn hf hmd hma hA [commandAccess (.mtrn md md)]
  have second : step (writeMatrix md (transposed A) { s with accesses := [commandAccess (.mtrn md md)] })
      = .next (writeMatrix md A { s with accesses := [] }) := by
    calc step (writeMatrix md (transposed A) { s with accesses := [commandAccess (.mtrn md md)] })
      _ = .next (writeMatrix md (transposed (transposed A))
            (writeMatrix md (transposed A) { s with accesses := [] })) :=
          step_mtrn (s := writeMatrix md (transposed A) s) hf hmd hmd (matrixReg_writeMatrix_self s md _ hmd) []
      _ = .next (writeMatrix md A { s with accesses := [] }) := by
          rw [writeMatrix_writeMatrix, transposed_transposed hfull]
  exact runSteps_succ.2 ⟨_, first, runSteps_succ.2 ⟨_, second, rfl⟩⟩

end Sys2Proof.Machine
end

section
/-! PROOFS. The system commands NOP, CLRF, SETMOD and GETMOD (R54 to R57), and the step that runs the command
of a legal value (R53). -/

namespace Sys2Proof.Machine

variable {s : State}

/-- Settles O9: the step executes the value written, and a legal value executes as its command. -/
theorem stepRunsTheDecodedCommand : Obligations.StepRunsTheDecodedCommand := by
  intro s w rest i h hf hw
  rw [step_write_cmd h]
  exact executeCommand_legal hf hw

/-! The words of NOP and CLRF have the same effect with a fault recorded: NOP's is then dropped, which changes
nothing either, and CLRF's is the one value that is let through (R104). -/

theorem executeCommand_nop (s : State) : executeCommand (encode .nop) s = .next s := by
  cases hf : s.fault with
  | false => exact executeCommand_legal hf (decodeOfEncode .nop rfl)
  | true => exact executeCommand_dropped hf (by decide)

theorem executeCommand_clrf (s : State) : executeCommand (encode .clrf) s = .next (clearFault s) := by
  cases hf : s.fault with
  | false => exact executeCommand_legal hf (decodeOfEncode .clrf rfl)
  | true =>
    rw [executeCommand, if_pos hf, if_pos (by decide)]
    rfl

/-- Where no fault is recorded, the fault registers already hold what CLRF puts there (R23, R24). -/
theorem clearFault_eq_self (hs : Inv s) (hf : s.fault = false) : clearFault s = s := by
  obtain ⟨hcode, hcmd, hinfo⟩ := hs.noFault hf
  cases s
  simp only at hf hcode hcmd hinfo
  rw [clearFault, hf, hcode, hcmd, hinfo]

/-- Settles O25, by the effect of the two words with a fault recorded or not. -/
theorem nopAndClrfEffects : Obligations.NopAndClrfEffects := by
  refine ⟨by decide, by decide, fun s =>
    ⟨rfl, executeCommand_nop s, rfl, executeCommand_clrf s, fun hs hf => ?_⟩⟩
  exact congrArg _ (clearFault_eq_self hs hf)

/-- Settles O26, by the two outcomes of SETMOD's range check. -/
theorem setmodEffect : Obligations.SetmodEffect := by
  refine ⟨by decide, fun s => ⟨fun hlow => ?_, fun hrange => ?_⟩⟩
  · have hcheck : ¬2 ≤ sext64 s.din := Int.not_le.2 hlow
    rw [Faults, exec, execSetmod, require_neg hcheck]
    rfl
  · have hcheck : 2 ≤ sext64 s.din := hrange
    rw [exec, execSetmod, require_pos hcheck]
    rfl

/-- Settles O27, by the two outcomes of reading MOD. -/
theorem getmodEffect : Obligations.GetmodEffect := by
  refine ⟨by decide, fun s => ⟨fun hnone => ?_, fun n hn => ?_⟩⟩
  · rw [Faults, exec, execGetmod, written_eq_error.2 ⟨hnone, rfl⟩]
    rfl
  · rw [exec, execGetmod, written_eq_ok.2 hn]
    rfl

end Sys2Proof.Machine
end

section
/-! PROOFS. How the Hamming commands end (R58 to R69). One rule for each shape they have: a load checks DIN's
range, and a stage reads one or two registers with a valid bit. What they compute is said bit by bit. -/

namespace Sys2Proof.Machine

variable {s : State} {w : Word}

/-! The shared shapes. -/

section Shapes

variable {α β : Type} {n : Nat}

theorem conclude_packedDin_ok {f : BitVec n → Except Raised State} (h : s.din.toNat < 2 ^ n) :
    conclude w s (packedDin n s >>= f) = conclude w s (f (s.din.setWidth n)) := by
  rw [packedDin_ok h, except_bind_ok]

theorem conclude_packedDin_bad {f : BitVec n → Except Raised State} (h : 2 ^ n ≤ s.din.toNat) :
    conclude w s (packedDin n s >>= f) = .next (takeFault ⟨.operandRange, 0#64⟩ w s) := by
  rw [packedDin_bad h, except_bind_error, conclude_error]

theorem conclude_written_some {r : Option α} {f : α → Except Raised State} {a : α} (h : r = some a) :
    conclude w s (written r >>= f) = conclude w s (f a) := by
  rw [h, written_some, except_bind_ok]

theorem conclude_written_none {r : Option α} {f : α → Except Raised State} (h : r = none) :
    conclude w s (written r >>= f) = .next (takeFault ⟨.unwritten, 0#64⟩ w s) := by
  rw [h, written_none, except_bind_error, conclude_error]

/-- A stage that reads two registers is Unwritten when either has no value, whichever it reads first. -/
theorem conclude_written_or_none {q : Option α} {r : Option β} {f : α → β → Except Raised State}
    (h : q = none ∨ r = none) :
    conclude w s (written q >>= fun a => written r >>= f a) =
      .next (takeFault ⟨.unwritten, 0#64⟩ w s) := by
  cases q with
  | none => exact conclude_written_none rfl
  | some a =>
    exact (conclude_written_some rfl).trans (conclude_written_none (h.resolve_left (Option.some_ne_none a)))

end Shapes

/-! The commands where they complete. -/

theorem exec_hldh (h : s.din.toNat < 2 ^ 21) : exec .hldh s = .next (writeH (s.din.setWidth 21) s) :=
  conclude_packedDin_ok h

theorem exec_hldc (h : s.din.toNat < 2 ^ 28) : exec .hldc s = .next (writeC (s.din.setWidth 28) s) :=
  conclude_packedDin_ok h

theorem exec_hldr (h : s.din.toNat < 2 ^ 28) : exec .hldr s = .next (writeR (s.din.setWidth 28) s) :=
  conclude_packedDin_ok h

theorem exec_hldv (h : s.din.toNat < 2 ^ 4) : exec .hldv s = .next (writeV (s.din.setWidth 4) s) :=
  conclude_packedDin_ok h

theorem exec_hldu (h : s.din.toNat < 2 ^ 7) : exec .hldu s = .next (writeU (s.din.setWidth 7) s) :=
  conclude_packedDin_ok h

theorem exec_hflip {u : BitVec 7} {p : Nat} (hu : s.uReg = some u) (hp : p ≤ 6) :
    exec (.hflip p) s = .next (writeU (flipBit p u) s) := by
  rw [exec, execHflip, conclude_written_some hu, require_pos hp, except_bind_ok]
  rfl

theorem exec_henc {C : BitVec 28} {v : BitVec 4} (hC : s.cReg = some C) (hv : s.vReg = some v) :
    exec .henc s = .next (writeU (encodeBlock C v) s) :=
  (conclude_written_some hC).trans (conclude_written_some hv)

theorem exec_hsyn {H : BitVec 21} {u : BitVec 7} (hH : s.hReg = some H) (hu : s.uReg = some u) :
    exec .hsyn s = .next (writeS (syndrome H u) s) :=
  (conclude_written_some hH).trans (conclude_written_some hu)

theorem exec_hloc {x : BitVec 3} (hx : s.sReg = some x) :
    exec .hloc s = .next (writeLoc (locate x) s) :=
  conclude_written_some hx

theorem exec_hcor_of_noError {l : BitVec 4} (hl : s.locReg = some l) (he : locErr l = false) :
    exec .hcor s = .next s := by
  rw [exec, execHcor, conclude_written_some hl, he]
  rfl

theorem exec_hcor_of_error {l : BitVec 4} {u : BitVec 7} (hl : s.locReg = some l) (he : locErr l = true)
    (hu : s.uReg = some u) : exec .hcor s = .next (writeU (flipBit (locIdx l) u) s) := by
  rw [exec, execHcor, conclude_written_some hl, he, if_pos rfl, conclude_written_some hu]
  rfl

theorem exec_hprj {R : BitVec 28} {u : BitVec 7} (hR : s.rReg = some R) (hu : s.uReg = some u) :
    exec .hprj s = .next (writeV (decodeBlock R u) s) :=
  (conclude_written_some hR).trans (conclude_written_some hu)

/-! The stage functions bit by bit, with bits as the numbers 0 and 1. -/

/-- A row of a product over GF(2) as a sum of products modulo 2 (R9). -/
theorem toNat_gfSum_and (n : Nat) (a b : Nat → Bool) :
    (gfSum n fun k => a k && b k).toNat = (∑ k ∈ Finset.range n, (a k).toNat * (b k).toNat) % 2 := by
  simp only [toNat_gfSum, toNat_and_eq_mul]

theorem toNat_not_eq_mod (b : Bool) : (!b).toNat = (b.toNat + 1) % 2 := by
  cases b <;> rfl

theorem toNat_getLsbD_flipBit (p : Nat) (u : BitVec 7) {k : Nat} (hk : k < 7) :
    ((flipBit p u).getLsbD k).toNat
      = if k = p then ((u.getLsbD k).toNat + 1) % 2 else (u.getLsbD k).toNat := by
  rw [getLsbD_flipBit p u hk, ← toNat_not_eq_mod, apply_ite Bool.toNat]

/-- IDX is the value of LOC's low three bits (R19). -/
theorem locIdx_eq_mod (l : BitVec 4) : locIdx l = l.toNat % 8 := by
  simp [locIdx]

/-- A located error is reported as `8 + (b - 1)` (R67). -/
theorem toNat_locate {x : BitVec 3} (hx : x ≠ 0#3) : (locate x).toNat = 8 + (syndromeNumber x - 1) := by
  have hlt : syndromeNumber x < 8 := syndromeNumber_eq_toNat x ▸ x.isLt
  rw [locate, if_neg hx, BitVec.toNat_ofNat]
  omega

/-- A matrix of seven columns loaded from DIN has element `[r][k]` from bit `7r + k` (R17). -/
theorem element_setWidth {n r k m : Nat} (hr : r < m) (hk : k < 7) (hn : n = 7 * m) :
    element (w.setWidth n) r k = w.getLsbD (7 * r + k) := by
  have : 7 * r + k < n := by omega
  simp [element, this]

/-- A value from DIN that fits the register is loaded as it is. -/
theorem toNat_setWidth_of_fits {n : Nat} (h : w.toNat < 2 ^ n) : (w.setWidth n).toNat = w.toNat := by
  rw [BitVec.toNat_setWidth, Nat.mod_eq_of_lt h]

/-- HRD's rule for one selector, from the register that the selector names. -/
theorem hrdReads_of_selected {n i : Nat} {r : Option (BitVec n)} (hi : i ≤ 6)
    (hr : selectedHamming i s = r.map (·.setWidth 64)) : HrdReads i r s := by
  have hread : exec (.hrd i) s =
      conclude (encode (.hrd i)) s (written (r.map (·.setWidth 64)) >>= fun x => pure (writeDout x s)) := by
    rw [exec, execHrd, require_pos hi, except_bind_ok, hr]
  refine ⟨fun hnone => ?_, fun x hx => ?_⟩
  · rw [Faults, hread, conclude_written_none (by rw [hnone]; rfl)]
    rfl
  · rw [hread, conclude_written_some (by rw [hx]; rfl), BitVec.ofNat_toNat]
    rfl

/-! The statements about the single commands. -/

/-- Settles O28, by the two outcomes of the range check on DIN. -/
theorem hammingMatrixLoads : Obligations.HammingMatrixLoads := by
  refine ⟨by decide, by decide, by decide, fun s => ⟨conclude_packedDin_bad, fun h => ?_, fun h => ?_, fun h => ?_⟩⟩
  · exact ⟨_, exec_hldh h, fun r hr k hk => element_setWidth hr hk rfl⟩
  · exact ⟨conclude_packedDin_bad h, conclude_packedDin_bad h⟩
  · exact ⟨_, exec_hldc h, exec_hldr h, fun r hr k hk => element_setWidth hr hk rfl⟩

/-- Settles O29, by the two outcomes of the range check on DIN. -/
theorem hammingBlockLoads : Obligations.HammingBlockLoads := by
  refine ⟨by decide, by decide, fun s => ⟨conclude_packedDin_bad, fun h => ?_, conclude_packedDin_bad, fun h => ?_⟩⟩
  · exact ⟨_, exec_hldv h, toNat_setWidth_of_fits h⟩
  · exact ⟨_, exec_hldu h, toNat_setWidth_of_fits h⟩

/-- Settles O30: the selectors 0 to 6 name a register each, and the range check refuses the others. -/
theorem hrdEffect : Obligations.HrdEffect := by
  refine ⟨fun i hi => ?_, fun s => ⟨hrdReads_of_selected (by decide) rfl, hrdReads_of_selected (by decide) rfl,
    hrdReads_of_selected (by decide) rfl, hrdReads_of_selected (by decide) rfl,
    hrdReads_of_selected (by decide) rfl, hrdReads_of_selected (by decide) rfl,
    hrdReads_of_selected (by decide) rfl, fun i hi => ?_⟩⟩
  · simpa [encode] using encodingFormula 0x15#8 0 0 0 i 0 (by decide) (by decide) (by decide) hi (by decide)
  · rw [Faults, exec, execHrd, require_neg (by omega)]
    rfl

/-- Settles O31: HFLIP reads U before it checks the position. -/
theorem hflipEffect : Obligations.HflipEffect := by
  refine ⟨fun p hp => ?_, fun s p => ⟨conclude_written_none, fun u hu => ⟨fun hp => ?_, fun hp => ?_⟩⟩⟩
  · simpa [encode] using encodingFormula 0x16#8 0 0 0 0 p (by decide) (by decide) (by decide) (by decide) hp
  · rw [Faults, exec, execHflip, conclude_written_some hu, require_neg (by omega)]
    rfl
  · exact ⟨_, exec_hflip hu hp, fun k hk => toNat_getLsbD_flipBit p u hk⟩

/-- Settles O32, by HENC's two reads and the bits of the encoded block. -/
theorem hencEffect : Obligations.HencEffect := by
  refine ⟨by decide, fun s => ⟨conclude_written_or_none, fun C v hC hv => ⟨_, exec_henc hC hv, fun k hk => ?_⟩⟩⟩
  rw [getLsbD_encodeBlock C v hk]
  exact toNat_gfSum_and 4 _ _

/-- Settles O33, by HSYN's two reads and the bits of the syndrome. -/
theorem hsynEffect : Obligations.HsynEffect := by
  refine ⟨by decide, fun s => ⟨conclude_written_or_none, fun H u hH hu => ⟨_, exec_hsyn hH hu, fun r hr => ?_⟩⟩⟩
  rw [getLsbD_syndrome H u hr]
  exact toNat_gfSum_and 7 _ _

/-- Settles O34, by HLOC's read and the two rows of the locator's table. -/
theorem hlocEffect : Obligations.HlocEffect := by
  refine ⟨by decide, fun s => ⟨conclude_written_none, fun x hx => ⟨_, exec_hloc hx, fun h0 => ?_, toNat_locate⟩⟩⟩
  exact if_pos h0

/-- Settles O35, by the two values of ERR. -/
theorem hcorEffect : Obligations.HcorEffect := by
  refine ⟨by decide, fun s => ⟨conclude_written_none, fun l hl =>
    ⟨exec_hcor_of_noError hl, fun he u hu => ⟨_, exec_hcor_of_error hl he hu, fun k hk => ?_⟩⟩⟩⟩
  rw [toNat_getLsbD_flipBit _ u hk, locIdx_eq_mod]

/-- Settles O36, by HPRJ's two reads and the bits of the decoded block. -/
theorem hprjEffect : Obligations.HprjEffect := by
  refine ⟨by decide, fun s => ⟨conclude_written_or_none, fun R u hR hu => ⟨_, exec_hprj hR hu, fun r hr => ?_⟩⟩⟩
  rw [getLsbD_decodeBlock R u hr]
  exact toNat_gfSum_and 7 _ _

end Sys2Proof.Machine
end

section
/-! PROOFS. The code that H* checks (R70 to R72). The one idea: the syndrome is linear, so that flipping bit `p`
adds column `p` of H to it, and column `p` of H* is the number `p + 1`, which the locator turns back into `p`. -/

namespace Sys2Proof.Machine

variable {H : BitVec 21} {u : BitVec 7} {p : Nat}

/-! The syndrome is linear in the word. -/

/-- Column `p` of a parity-check matrix, row 0 in bit 0. -/
def column (H : BitVec 21) (p : Nat) : BitVec 3 := bitVector 3 fun r => element H r p

theorem getLsbD_column {r : Nat} (hr : r < 3) : (column H p).getLsbD r = element H r p := by
  rw [column, getLsbD_bitVector _ hr]

/-- A sum in which one place only may count is that place's value. -/
theorem gfSum_single {n : Nat} (f : Nat → Bool) (hp : p < n) :
    (gfSum n fun k => f k && decide (k = p)) = f p := by
  induction n with
  | zero => omega
  | succ n ih =>
    obtain hlt | rfl : p < n ∨ p = n := by omega
    · have hne : n ≠ p := by omega
      simp [gfSum, ih hlt, hne]
    · have hbelow : (gfSum p fun k => f k && decide (k = p)) = gfSum p fun _ => false :=
        gfSum_congr fun k hk => by simp [Nat.ne_of_lt hk]
      simp [gfSum, hbelow]

theorem getLsbD_flipBit_xor (p : Nat) (u : BitVec 7) {k : Nat} (hk : k < 7) :
    (flipBit p u).getLsbD k = (u.getLsbD k).xor (decide (k = p)) := by
  rw [getLsbD_flipBit p u hk]
  by_cases h : k = p <;> simp [h]

/-- Flipping bit `p` adds column `p` to the syndrome. -/
theorem syndrome_flipBit (H : BitVec 21) (u : BitVec 7) (hp : p < 7) :
    syndrome H (flipBit p u) = syndrome H u ^^^ column H p := by
  apply BitVec.eq_of_getLsbD_eq
  intro r hr
  have hterm : ∀ k < 7, (element H r k && (flipBit p u).getLsbD k)
      = (element H r k && u.getLsbD k).xor (element H r k && decide (k = p)) := fun k hk => by
    rw [getLsbD_flipBit_xor p u hk, Bool.and_xor_distrib_left]
  rw [BitVec.getLsbD_xor, getLsbD_syndrome H _ hr, getLsbD_syndrome H u hr, getLsbD_column hr,
    gfSum_congr hterm, gfSum_xor, gfSum_single _ hp]

theorem syndrome_zero (H : BitVec 21) : syndrome H 0#7 = 0#3 :=
  bitVector_eq_iff.2 fun r _ => by simp

theorem flipBit_flipBit (p : Nat) (u : BitVec 7) : flipBit p (flipBit p u) = u := by
  apply BitVec.eq_of_getLsbD_eq
  intro k hk
  rw [getLsbD_flipBit_xor p _ hk, getLsbD_flipBit_xor p u hk, Bool.xor_assoc, Bool.xor_self, Bool.xor_false]

/-- A parity-check matrix is its seven columns. -/
theorem eq_of_column_eq {K : BitVec 21} (h : ∀ p < 7, column H p = column K p) : H = K := by
  apply BitVec.eq_of_getLsbD_eq
  intro i hi
  have hplace : 7 * (i / 7) + i % 7 = i := Nat.div_add_mod i 7
  have hrow : i / 7 < 3 := by omega
  have hbit := congrArg (·.getLsbD (i / 7)) (h (i % 7) (Nat.mod_lt i (by decide)))
  simpa only [getLsbD_column hrow, element, hplace] using hbit

/-! The locator and the columns of H*. -/

/-- The locator answers position `p` for the syndrome `p + 1`, and for no other (R67). -/
theorem toNat_locate_eq_iff (x : BitVec 3) : (locate x).toNat = 8 + p ↔ x.toNat = p + 1 := by
  by_cases hx : x = 0#3
  · simp [hx, locate]
    omega
  · have hpos : x.toNat ≠ 0 := fun h => hx (BitVec.eq_of_toNat_eq h)
    rw [toNat_locate hx, syndromeNumber_eq_toNat]
    omega

theorem locErr_locate {x : BitVec 3} (hx : x ≠ 0#3) : locErr (locate x) = true := by
  revert x
  decide

/-- The position that the locator names for the syndrome `x`; 0 for the syndrome 0, where it names none. -/
theorem locIdx_locate (x : BitVec 3) : locIdx (locate x) = x.toNat - 1 := by
  revert x
  decide

/-- Column `p` of H* is the binary representation of `p + 1` (R70). -/
theorem column_hStar : ∀ p < 7, column hStar p = BitVec.ofNat 3 (p + 1) := by decide

theorem toNat_column_hStar (hp : p < 7) : (column hStar p).toNat = p + 1 := by
  rw [column_hStar p hp, BitVec.toNat_ofNat, Nat.mod_eq_of_lt (by omega)]

/-- With H*, an error at position `p` in a word of zero syndrome is located there. -/
theorem toNat_syndrome_hStar_flipBit (hu : syndrome hStar u = 0#3) (hp : p < 7) :
    (syndrome hStar (flipBit p u)).toNat = p + 1 := by
  rw [syndrome_flipBit hStar u hp, hu, BitVec.zero_xor, toNat_column_hStar hp]

/-- Settles O37: the errors in the word 0 have H's columns as their syndromes, and the locator names them all
only if these are the columns of H*. -/
theorem hStarIsTheOnlyMatrixThatLocates : Obligations.HStarIsTheOnlyMatrixThatLocates := by
  refine ⟨rfl, by decide, fun H => ⟨fun hlocates => eq_of_column_eq fun p hp => ?_, ?_⟩⟩
  · have hcolumn : syndrome H (flipBit p 0#7) = column H p := by
      rw [syndrome_flipBit H _ hp, syndrome_zero, BitVec.zero_xor]
    apply BitVec.eq_of_toNat_eq
    rw [toNat_column_hStar hp, ← hcolumn, ← toNat_locate_eq_iff]
    exact hlocates 0#7 (syndrome_zero H) p hp
  · rintro rfl u hu p hp
    exact (toNat_locate_eq_iff _).2 (toNat_syndrome_hStar_flipBit hu hp)

/-! Correction with H*. -/

/-- What HSYN, HLOC, HCOR make of U with H*: the bit that the syndrome names is flipped, if it names one. -/
def corrected (u : BitVec 7) : BitVec 7 :=
  if syndrome hStar u = 0#3 then u else flipBit ((syndrome hStar u).toNat - 1) u

theorem corrected_of_syndrome_eq (h : (syndrome hStar u).toNat = p + 1) :
    corrected u = flipBit p u := by
  have hne : syndrome hStar u ≠ 0#3 := fun h0 => by simp [h0] at h
  rw [corrected, if_neg hne, h, Nat.add_sub_cancel]

/-- A word has zero syndrome, or the syndrome names one of its bits. -/
theorem syndrome_hStar_cases (u : BitVec 7) :
    syndrome hStar u = 0#3 ∨ ∃ p < 7, (syndrome hStar u).toNat = p + 1 := by
  have hlt := (syndrome hStar u).isLt
  by_cases h0 : (syndrome hStar u).toNat = 0
  · exact .inl (BitVec.eq_of_toNat_eq h0)
  · exact .inr ⟨(syndrome hStar u).toNat - 1, by omega, by omega⟩

theorem corrected_distance (u : BitVec 7) : corrected u = u ∨ ∃ p < 7, corrected u = flipBit p u := by
  obtain h0 | ⟨p, hp, h⟩ := syndrome_hStar_cases u
  · exact .inl (if_pos h0)
  · exact .inr ⟨p, hp, corrected_of_syndrome_eq h⟩

/-- The corrected word has zero syndrome: the flip adds the syndrome's own column to it. -/
theorem syndrome_corrected (u : BitVec 7) : syndrome hStar (corrected u) = 0#3 := by
  obtain h0 | ⟨p, hp, h⟩ := syndrome_hStar_cases u
  · rw [corrected, if_pos h0, h0]
  · have hcolumn : column hStar p = syndrome hStar u :=
      BitVec.eq_of_toNat_eq ((toNat_column_hStar hp).trans h.symm)
    rw [corrected_of_syndrome_eq h, syndrome_flipBit hStar u hp, hcolumn, BitVec.xor_self]

/-- A single error in a word of zero syndrome is undone. -/
theorem corrected_flipBit (hu : syndrome hStar u = 0#3) (hp : p < 7) : corrected (flipBit p u) = u := by
  rw [corrected_of_syndrome_eq (toNat_syndrome_hStar_flipBit hu hp), flipBit_flipBit]

/-- Two errors in a word of zero syndrome have the syndrome `(p + 1) XOR (q + 1)`. -/
theorem toNat_syndrome_hStar_two {q : Nat} (hu : syndrome hStar u = 0#3) (hp : p < 7) (hq : q < 7) :
    (syndrome hStar (flipBit q (flipBit p u))).toNat = (p + 1) ^^^ (q + 1) := by
  rw [syndrome_flipBit hStar _ hq, BitVec.toNat_xor, toNat_syndrome_hStar_flipBit hu hp, toNat_column_hStar hq]

/-- The column of one error alone is never the sum of the columns of two. -/
theorem succ_xor_succ_ne (p q : Nat) : (p + 1) ^^^ (q + 1) ≠ p + 1 := by
  simp

/-- Flipping three different bits does not give the word back. -/
theorem flipBit_three_ne {q c : Nat} (hc : c < 7) (hcp : c ≠ p) (hcq : c ≠ q) :
    flipBit c (flipBit q (flipBit p u)) ≠ u := by
  intro h
  have hbit : (flipBit c (flipBit q (flipBit p u))).getLsbD c = u.getLsbD c := congrArg (·.getLsbD c) h
  rw [getLsbD_flipBit c _ hc, getLsbD_flipBit q _ hc, getLsbD_flipBit p u hc] at hbit
  simp [hcp, hcq] at hbit

/-! Encoding with matrices that match H* (R71, R72). -/

variable {C R : BitVec 28} {v : BitVec 4}

/-- R71's products as sums over GF(2). -/
theorem gfSum_of_gfProductIs {m n ra rb r q : Nat} {A : BitVec m} {B : BitVec n} {unit : Bool}
    (h : gfProductIs A B ra rb unit) (hr : r < ra) (hq : q < rb) :
    (gfSum 7 fun k => element A r k && element B q k) = (unit && decide (q = r)) := by
  have hsum := (toNat_gfSum_and 7 (element A r) (element B q)).trans (h r hr q hq)
  rw [Bool.eq_iff_iff, ← Bool.toNat_eq_one, hsum]
  simp [eq_comm (a := r)]

/-- A row of `A · C^T · v`: `C^T · v` is `HENC`'s output. -/
theorem gfSum_encodeBlock {m ra r : Nat} {A : BitVec m} {unit : Bool} (h : gfProductIs A C ra 4 unit)
    (hr : r < ra) : (gfSum 7 fun k => element A r k && (encodeBlock C v).getLsbD k) =
      gfSum 4 fun q => v.getLsbD q && (unit && decide (q = r)) := by
  calc (gfSum 7 fun k => element A r k && (encodeBlock C v).getLsbD k)
    _ = gfSum 7 fun k => gfSum 4 fun q => v.getLsbD q && (element A r k && element C q k) :=
        gfSum_congr fun k hk => by
          rw [getLsbD_encodeBlock C v hk, and_gfSum]
          exact gfSum_congr fun q _ => by rw [← Bool.and_assoc, Bool.and_comm]
    _ = gfSum 4 fun q => v.getLsbD q && (unit && decide (q = r)) := by
        rw [gfSum_comm]
        exact gfSum_congr fun q hq => by rw [← and_gfSum, gfSum_of_gfProductIs h hr hq]

theorem syndrome_encodeBlock (h : gfProductIs H C 3 4 false) (v : BitVec 4) :
    syndrome H (encodeBlock C v) = 0#3 :=
  bitVector_eq_iff.2 fun r hr => by
    rw [gfSum_encodeBlock h hr]
    simp

theorem decodeBlock_encodeBlock (h : gfProductIs R C 4 4 true) (v : BitVec 4) :
    decodeBlock R (encodeBlock C v) = v :=
  bitVector_eq_iff.2 fun r hr => by
    rw [gfSum_encodeBlock h hr]
    simpa using gfSum_single _ hr

/-- A word of zero syndrome with H*. -/
abbrev ZeroSyndrome : Type := {u : BitVec 7 // syndrome hStar u = 0#3}

theorem card_zeroSyndrome : Fintype.card ZeroSyndrome = 16 := by decide

/-- HENC's output as a word of zero syndrome (R72). -/
def codeword (hHC : gfProductIs hStar C 3 4 false) (v : BitVec 4) : ZeroSyndrome :=
  ⟨encodeBlock C v, syndrome_encodeBlock hHC v⟩

/-- There are as many blocks as words of zero syndrome, and the decoder matrix tells the codewords of two
blocks apart. -/
theorem codeword_bijective (hHC : gfProductIs hStar C 3 4 false) (hRC : gfProductIs R C 4 4 true) :
    Function.Bijective (codeword hHC) := by
  refine (Fintype.bijective_iff_injective_and_card _).2 ⟨fun v w h => ?_, card_zeroSyndrome.symm⟩
  have hblocks : encodeBlock C v = encodeBlock C w := congrArg Subtype.val h
  rw [← decodeBlock_encodeBlock hRC v, hblocks, decodeBlock_encodeBlock hRC]

theorem syndrome_hStar_eq_zero_iff (hHC : gfProductIs hStar C 3 4 false) (hRC : gfProductIs R C 4 4 true) :
    syndrome hStar u = 0#3 ↔ ∃ v, encodeBlock C v = u := by
  constructor
  · intro hu
    obtain ⟨v, hv⟩ := (codeword_bijective hHC hRC).2 ⟨u, hu⟩
    exact ⟨v, congrArg Subtype.val hv⟩
  · rintro ⟨v, rfl⟩
    exact syndrome_encodeBlock hHC v

end Sys2Proof.Machine
end

section
/-! PROOFS. The runs of Hamming commands with H*: coding, correcting and miscorrecting (R72 to R74). -/

namespace Sys2Proof.Machine

variable {s : State} {H : BitVec 21} {C R : BitVec 28} {v : BitVec 4} {u : BitVec 7} {p : Nat}

/-! The commands in a run. -/

/-- A run goes on from where its first command completes (R53). -/
theorem runCommands_next {i : Instr} {rest : List Instr} {t : State} (hf : s.fault = false)
    (h : exec i s = .next t) (hi : i.wellFormed = true := by rfl) :
    runCommands (i :: rest) s = runCommands rest t :=
  runCommands_cons hf (decodeOfEncode i hi) h

theorem runCommands_single {i : Instr} {t : State} (hf : s.fault = false) (h : exec i s = .next t)
    (hi : i.wellFormed = true := by rfl) : runCommands [i] s = .next t :=
  runCommands_next hf h hi

/-- The state after HSYN and HLOC (R66, R67). -/
def located (H : BitVec 21) (u : BitVec 7) (s : State) : State :=
  writeLoc (locate (syndrome H u)) (writeS (syndrome H u) s)

theorem runCommands_locate (rest : List Instr) (hf : s.fault = false) (hH : s.hReg = some H)
    (hu : s.uReg = some u) :
    runCommands (.hsyn :: .hloc :: rest) s = runCommands rest (located H u s) := by
  rw [runCommands_next hf (exec_hsyn hH hu)]
  exact runCommands_next hf (exec_hloc rfl)

/-- HCOR after HSYN and HLOC with H* leaves the corrected word in U, and H as it was. -/
theorem exec_hcor_located (hu : s.uReg = some u) : ∃ t, exec .hcor (located hStar u s) = .next t ∧
    t.fault = s.fault ∧ t.hReg = s.hReg ∧ t.uReg = some (corrected u) := by
  by_cases h0 : syndrome hStar u = 0#3
  · refine ⟨_, exec_hcor_of_noError rfl (by rw [h0]; rfl), rfl, rfl, ?_⟩
    rw [corrected, if_pos h0]
    exact hu
  · refine ⟨_, exec_hcor_of_error rfl (locErr_locate h0) hu, rfl, rfl, ?_⟩
    rw [corrected, if_neg h0, locIdx_locate]
    rfl

/-- Settles O39: the run leaves the corrected word, and for two errors the syndrome names a third bit. -/
theorem doubleErrorsAreMiscorrectedSilently : Obligations.DoubleErrorsAreMiscorrectedSilently := by
  intro s u hf hH hu
  obtain ⟨t, ht, htf, -, htu⟩ := exec_hcor_located hu
  refine ⟨t, corrected u, (runCommands_locate _ hf hH hu).trans (runCommands_single hf ht), htf.trans hf, htu,
    syndrome_corrected u, corrected_distance u, ?_⟩
  rintro c p q w hp hq hpq hw rfl hc
  have hc7 : c < 7 := by
    have : (p + 1) ^^^ (q + 1) < 2 ^ 3 := Nat.xor_lt_two_pow (by omega) (by omega)
    omega
  have hcp : c ≠ p := fun h => succ_xor_succ_ne p q (h ▸ hc.symm)
  have hcq : c ≠ q := fun h => succ_xor_succ_ne q p (Nat.xor_comm _ _ ▸ h ▸ hc.symm)
  have hflip := corrected_of_syndrome_eq ((toNat_syndrome_hStar_two hw hp hq).trans hc.symm)
  exact ⟨hc7, hcp, hcq, hflip, hflip ▸ flipBit_three_ne hc7 hcp hcq⟩

/-! The runs of R72. -/

/-- The state after HLDV with the block `v` in DIN, then HENC (R61, R65). -/
def encoded (C : BitVec 28) (v : BitVec 4) (s : State) : State := writeU (encodeBlock C v) (writeV v s)

theorem encoded_uReg : (encoded C v s).uReg = some (encodeBlock C v) := rfl

theorem runCommands_encode (rest : List Instr) (hf : s.fault = false) (hC : s.cReg = some C)
    (hdin : s.din = v.setWidth 64) :
    runCommands (.hldv :: .henc :: rest) s = runCommands rest (encoded C v s) := by
  have hload : exec .hldv s = .next (writeV v s) := by
    rw [exec_hldv (by rw [hdin]; simp; omega), hdin]
    simp
  rw [runCommands_next hf hload]
  exact runCommands_next hf (exec_henc hC rfl)

/-- R72 (1): the block comes back. -/
theorem runCommands_roundTrip (hf : s.fault = false) (hC : s.cReg = some C) (hR : s.rReg = some R)
    (hRC : gfProductIs R C 4 4 true) (hdin : s.din = v.setWidth 64) :
    runCommands [.hldv, .henc, .hprj] s = .next (writeV v (encoded C v s)) := by
  have hproject := exec_hprj (s := encoded C v s) hR encoded_uReg
  rw [decodeBlock_encodeBlock hRC] at hproject
  rw [runCommands_encode _ hf hC hdin]
  exact runCommands_single hf hproject

theorem runCommands_flip_locate (hf : s.fault = false) (hH : s.hReg = some H) (hu : s.uReg = some u) (hp : p < 7) :
    runCommands [.hflip p, .hsyn, .hloc] s = .next (located H (flipBit p u) (writeU (flipBit p u) s)) := by
  have hfits : (Instr.hflip p).wellFormed = true := decide_eq_true (by omega)
  rw [runCommands_next hf (exec_hflip hu (by omega)) hfits]
  exact runCommands_locate [] hf hH rfl

/-- R72 (2): with a word of zero syndrome in U, a flipped bit is located, and HCOR flips it back. -/
theorem singleError_corrected (hf : s.fault = false) (hH : s.hReg = some hStar) (hu : s.uReg = some u)
    (hzero : syndrome hStar u = 0#3) (hp : p < 7) :
    ∃ l t, runCommands [.hflip p, .hsyn, .hloc] s = .next l ∧ l.locReg.map BitVec.toNat = some (8 + p) ∧
      runCommands [.hcor] l = .next t ∧ t.fault = false ∧ t.uReg = some u ∧
      ∃ z, runCommands [.hsyn] t = .next z ∧ z.sReg = some 0#3 := by
  have hlocation : (locate (syndrome hStar (flipBit p u))).toNat = 8 + p :=
    (toNat_locate_eq_iff _).2 (toNat_syndrome_hStar_flipBit hzero hp)
  obtain ⟨t, ht, htf, htH, htu⟩ := exec_hcor_located (s := writeU (flipBit p u) s) rfl
  rw [corrected_flipBit hzero hp] at htu
  have hagain := exec_hsyn (htH.trans hH) htu
  rw [hzero] at hagain
  exact ⟨_, t, runCommands_flip_locate hf hH hu hp, congrArg some hlocation, runCommands_single hf ht,
    htf.trans hf, htu, _, runCommands_single (htf.trans hf) hagain, rfl⟩

/-- Settles O38: `R · C^T = I` gives the round trip, `H* · C^T = 0` the zero syndrome that the correction of a
single error starts from, and both together that the words of zero syndrome are the codewords. -/
theorem hammingCodeCorrectsSingleErrors : Obligations.HammingCodeCorrectsSingleErrors := by
  intro s C R hf hH hC hR hHC hRC
  refine ⟨fun v hdin => ⟨⟨_, runCommands_roundTrip hf hC hR hRC hdin, hf, rfl⟩, fun p hp => ?_⟩, fun u hu => ?_⟩
  · obtain ⟨l, t, hl, hloc, ht, htf, htu, hz⟩ :=
      singleError_corrected (s := encoded C v s) hf hH encoded_uReg (syndrome_encodeBlock hHC v) hp
    exact ⟨_, l, t, runCommands_encode [] hf hC hdin, rfl, hl, hloc, ht, htf, htu, hz⟩
  · have henc : ∀ v, exec .henc { s with vReg := some v } = .next (encoded C v s) := fun v => exec_henc hC rfl
    refine ⟨_, exec_hsyn hH hu, ?_⟩
    simp [henc, encoded_uReg, syndrome_hStar_eq_zero_iff hHC hRC]

end Sys2Proof.Machine
end

section
/-! PROOFS. The model's determinant and adjugate are Mathlib's (R83, R84), and depend modulo N on the residues
of the entries only. -/

namespace Sys2Proof.Machine

variable {m n r c N : Nat} {A B : Nat → Nat → Int}

/-- An `r` by `c` integer array as a matrix. -/
def arrayMatrix (r c : Nat) (A : Nat → Nat → Int) : Matrix (Fin r) (Fin c) Int := Matrix.of fun a b => A a b

/-- The array's entries modulo N, as a matrix over the integers modulo N. -/
def residues (N r c : Nat) (A : Nat → Nat → Int) : Matrix (Fin r) (Fin c) (ZMod N) :=
  (arrayMatrix r c A).map (Int.castRingHom (ZMod N))

theorem arrayMatrix_removeRowCol (A : Nat → Nat → Int) (a b : Fin (n + 1)) :
    arrayMatrix n n (removeRowCol A a b) = (arrayMatrix (n + 1) (n + 1) A).submatrix a.succAbove b.succAbove := by
  ext i k
  simp only [arrayMatrix, removeRowCol, skipIndex_eq, Matrix.of_apply, Matrix.submatrix_apply]

/-- Expansion along row 0 computes the determinant (R83). -/
theorem det_eq_matrix_det (n : Nat) (A : Nat → Nat → Int) : det n A = (arrayMatrix n n A).det := by
  induction n generalizing A with
  | zero => rw [Matrix.det_fin_zero, det]
  | succ n ih =>
    rw [det, sumTo_eq_sum, Finset.sum_range, Matrix.det_succ_row_zero]
    refine Finset.sum_congr rfl fun k _ => ?_
    rw [altSign_eq, ih, ← Fin.val_zero (n + 1), arrayMatrix_removeRowCol, Fin.succAbove_zero]
    rfl

theorem adj_eq_adjugate (A : Nat → Nat → Int) (a b : Fin n) : adj n A a b = (arrayMatrix n n A).adjugate a b := by
  cases n with
  | zero => exact a.elim0
  | succ n =>
    rw [adj, Nat.add_sub_cancel, altSign_eq, det_eq_matrix_det, arrayMatrix_removeRowCol,
      Matrix.adjugate_fin_succ_eq_det_submatrix, Nat.add_comm]

theorem arrayMatrix_adj (n : Nat) (A : Nat → Nat → Int) :
    arrayMatrix n n (adj n A) = (arrayMatrix n n A).adjugate :=
  Matrix.ext fun a b => adj_eq_adjugate A a b

theorem arrayMatrix_mul (A B : Nat → Nat → Int) : arrayMatrix r m A * arrayMatrix m c B =
    arrayMatrix r c fun a b => ∑ t ∈ Finset.range m, A a t * B t b := by
  ext a b
  rw [Matrix.mul_apply]
  exact (Finset.sum_range fun t => A a t * B t b).symm

/-- The scalar matrix, entry by entry. -/
theorem arrayMatrix_scalar (n : Nat) (x : Int) :
    (arrayMatrix n n fun a b => if a = b then x else 0) = x • (1 : Matrix (Fin n) (Fin n) Int) := by
  ext a b
  simp [arrayMatrix, Matrix.one_apply, Fin.ext_iff]

theorem arrayMatrix_eq_iff : arrayMatrix r c A = arrayMatrix r c B ↔ ∀ a < r, ∀ b < c, A a b = B a b :=
  ⟨fun h a ha b hb => congrFun (congrFun h ⟨a, ha⟩) ⟨b, hb⟩,
    fun h => Matrix.ext fun a b => h a a.isLt b b.isLt⟩

/-! Residues. -/

theorem residues_apply (A : Nat → Nat → Int) (a : Fin r) (b : Fin c) :
    residues N r c A a b = (A a b : ZMod N) := rfl

theorem residues_eq_iff :
    residues N r c A = residues N r c B ↔ ∀ a < r, ∀ b < c, A a b % N = B a b % N := by
  refine ⟨fun h a ha b hb => ?_, fun h => Matrix.ext fun a b => ?_⟩
  · exact (ZMod.intCast_eq_intCast_iff' ..).1 (congrFun (congrFun h ⟨a, ha⟩) ⟨b, hb⟩)
  · exact (ZMod.intCast_eq_intCast_iff' ..).2 (h a a.isLt b b.isLt)

theorem residues_mul (A B : Nat → Nat → Int) : residues N r m A * residues N m c B =
    residues N r c fun a b => ∑ t ∈ Finset.range m, A a t * B t b := by
  rw [residues, residues, ← Matrix.map_mul, arrayMatrix_mul]
  rfl

theorem residues_one (N n : Nat) : (residues N n n fun a b => if a = b then 1 else 0) = 1 := by
  rw [residues, arrayMatrix_scalar, one_smul, Matrix.map_one _ (map_zero _) (map_one _)]

theorem det_residues (N n : Nat) (A : Nat → Nat → Int) : (residues N n n A).det = (det n A : ZMod N) := by
  rw [det_eq_matrix_det]
  exact (RingHom.map_det ..).symm

theorem adjugate_residues (N n : Nat) (A : Nat → Nat → Int) :
    (residues N n n A).adjugate = residues N n n (adj n A) := by
  rw [residues, residues, arrayMatrix_adj]
  exact (RingHom.map_adjugate ..).symm

theorem det_emod_congr (h : ∀ a < n, ∀ b < n, A a b % N = B a b % N) : det n A % N = det n B % N := by
  rw [← ZMod.intCast_eq_intCast_iff', ← det_residues, ← det_residues, residues_eq_iff.2 h]

theorem adj_emod_congr (h : ∀ a < n, ∀ b < n, A a b % N = B a b % N) :
    ∀ a < n, ∀ b < n, adj n A a b % N = adj n B a b % N := by
  rw [← residues_eq_iff, ← adjugate_residues, ← adjugate_residues, residues_eq_iff.2 h]

/-- Settles O48: the determinant is Mathlib's, whose signed sum runs over the inverse permutations. -/
theorem detIsThePermutationSum : Obligations.DetIsThePermutationSum := by
  intro n A
  refine ⟨?_, fun N hN => ?_⟩
  · rw [det_eq_matrix_det, ← Matrix.det_transpose, Matrix.det_apply']
    rfl
  · lift N to Nat using by omega
    exact det_emod_congr fun a _ b _ => (Int.emod_emod_of_dvd _ dvd_rfl).symm

/-- Settles O49: the adjugate is Mathlib's, and so are its two products with the array. -/
theorem adjugateIdentity : Obligations.AdjugateIdentity := by
  intro n A a ha b hb
  have hright : arrayMatrix n n A * arrayMatrix n n (adj n A) =
      arrayMatrix n n fun a b => if a = b then det n A else 0 := by
    rw [arrayMatrix_adj, Matrix.mul_adjugate, ← det_eq_matrix_det, arrayMatrix_scalar]
  have hleft : arrayMatrix n n (adj n A) * arrayMatrix n n A =
      arrayMatrix n n fun a b => if a = b then det n A else 0 := by
    rw [arrayMatrix_adj, Matrix.adjugate_mul, ← det_eq_matrix_det, arrayMatrix_scalar]
  rw [arrayMatrix_mul, arrayMatrix_eq_iff] at hright hleft
  exact ⟨by rw [adj, altSign_eq]; rfl, hright a ha b hb, hleft a ha b hb⟩

/-- Settles O55: `det` and `adj` read residues only. -/
theorem detModAndAdjSeeOnlyResidues : Obligations.DetModAndAdjSeeOnlyResidues := by
  intro A B n hn hrows _ _ h
  lift n to Nat using by omega
  rw [detMod, detMod, ← hrows]
  refine ⟨det_emod_congr h, fun a ha b hb e => ?_⟩
  rw [Int.mul_emod, adj_emod_congr h a ha b hb, ← Int.mul_emod]

end Sys2Proof.Machine
end

section
/-! PROOFS. The modular inverse by the extended Euclidean algorithm (R85). -/

namespace Sys2Proof.Machine

variable {d n : Int}

/-- The algorithm's invariant is that each coefficient times `d` is its remainder modulo `n`; at the end the
last non-zero remainder is the greatest common divisor. -/
theorem dvd_mul_euclidCoeff_sub_gcd {fuel : Nat} {r0 r1 t0 t1 : Int} (hr0 : 0 ≤ r0) (hr1 : 0 ≤ r1)
    (hfuel : r1 < fuel) (h0 : n ∣ d * t0 - r0) (h1 : n ∣ d * t1 - r1) :
    n ∣ d * euclidCoeff fuel r0 r1 t0 t1 - Int.gcd r0 r1 := by
  induction fuel generalizing r0 r1 t0 t1 with
  | zero => omega
  | succ fuel ih =>
    rw [euclidCoeff]
    split
    case isTrue hzero => rwa [hzero, Int.gcd_zero_right, Int.natAbs_of_nonneg hr0]
    case isFalse hne =>
      have hrem : r0 % r1 < r1 := Int.emod_lt_of_pos r0 (by omega)
      have hnext : n ∣ d * (t0 - r0 / r1 * t1) - r0 % r1 := by
        have hcombine : d * (t0 - r0 / r1 * t1) - r0 % r1 = d * t0 - r0 - r0 / r1 * (d * t1 - r1) := by
          rw [Int.emod_def]; ring
        exact hcombine ▸ dvd_sub h0 (h1.mul_left _)
      rw [← Int.gcd_emod, Int.gcd_comm]
      exact ih hr1 (Int.emod_nonneg r0 hne) (by omega) h1 hnext

theorem mul_invMod_emod (hn : 2 ≤ n) (hd : 0 ≤ d) (h : Int.gcd d n = 1) : d * invMod d n % n = 1 := by
  have hdvd : n ∣ d * euclidCoeff (d.toNat + 2) n d 0 1 - Int.gcd n d :=
    dvd_mul_euclidCoeff_sub_gcd (by omega) hd (by omega) (by simp) (by simp)
  rw [Int.gcd_comm, h] at hdvd
  rw [invMod, Int.mul_emod, Int.emod_emod_of_dvd _ dvd_rfl, ← Int.mul_emod]
  exact (Int.modEq_iff_dvd.2 hdvd).symm.eq.trans (Int.emod_eq_of_lt (by decide) (by omega))

theorem invMod_nonneg (hn : 2 ≤ n) : 0 ≤ invMod d n := Int.emod_nonneg _ (by omega)

theorem invMod_lt (hn : 2 ≤ n) : invMod d n < n := Int.emod_lt_of_pos _ (by omega)

/-- Settles O50: the algorithm gives an inverse, two inverses agree modulo `n`, and a common factor of `d` and
`n` would divide 1. -/
theorem invModIsTheInverse : Obligations.InvModIsTheInverse := by
  intro d n hn hd _
  refine ⟨fun hgcd => ⟨invMod_nonneg hn, invMod_lt hn, mul_invMod_emod hn hd hgcd, fun e he hen h => ?_⟩, ?_⟩
  · have hinv := mul_invMod_emod hn hd hgcd
    calc e = e * (d * invMod d n) % n := by
          rw [Int.mul_emod, hinv, mul_one, Int.emod_emod_of_dvd _ dvd_rfl, Int.emod_eq_of_lt he hen]
      _ = d * e * invMod d n % n := by rw [mul_left_comm, mul_assoc]
      _ = invMod d n := by
          rw [Int.mul_emod, h, one_mul, Int.emod_emod_of_dvd _ dvd_rfl,
            Int.emod_eq_of_lt (invMod_nonneg hn) (invMod_lt hn)]
  · rintro ⟨e, -, -, h⟩
    rw [← Int.isCoprime_iff_gcd_eq_one]
    exact ⟨e, -(d * e / n), by rw [← h, Int.emod_def]; ring⟩

end Sys2Proof.Machine
end

section
/-! PROOFS. How the matrix commands end (R77 to R82, R86 to R90). One rule for each check that their pseudocode
makes, in the order BadReg, Unw and UnwMod, the command's own; then what each command stores. -/

namespace Sys2Proof.Machine

variable {s : State} {w : Word} {A B : Mat} {n : Word} {rd ra rb i j : Nat}

/-! The shared checks. -/

section Checks

variable {l : List Nat}

theorem conclude_require_pos {p : Prop} [Decidable p] {c : Cause} {info : Word} {f : Unit → Except Raised State}
    (h : p) : conclude w s (require p c info >>= f) = conclude w s (f ()) := by
  rw [require_pos h, except_bind_ok]

theorem conclude_require_neg {p : Prop} [Decidable p] {c : Cause} {info : Word} {f : Unit → Except Raised State}
    (h : ¬p) : conclude w s (require p c info >>= f) = .next (takeFault ⟨c, info⟩ w s) := by
  rw [require_neg h, except_bind_error, conclude_error]

theorem conclude_badReg {f : Unit → Except Raised State} (h : ∃ k ∈ l, 8 ≤ k) :
    conclude w s (goodRegs l >>= f) = .next (takeFault ⟨.badRegister, 0#64⟩ w s) := by
  obtain ⟨k, hk, h8⟩ := h
  rw [goodRegs_bad hk h8, except_bind_error, conclude_error]

theorem conclude_unw {f : Mat → Except Raised State} (hl : ∀ k ∈ l, k < 8) (h : matrixReg ra s = none) :
    conclude w s (goodRegs l >>= fun _ => sourceMatrix ra s >>= f) =
      .next (takeFault ⟨.unwritten, 0#64⟩ w s) := by
  rw [goodRegs_ok hl, except_bind_ok]
  exact conclude_written_none h

theorem conclude_source {f : Mat → Except Raised State} (hl : ∀ k ∈ l, k < 8) (hA : matrixReg ra s = some A) :
    conclude w s (goodRegs l >>= fun _ => sourceMatrix ra s >>= f) = conclude w s (f A) := by
  rw [goodRegs_ok hl, except_bind_ok, sourceMatrix_some hA, except_bind_ok]

/-- Two source matrices are read one after the other; either may have no value. -/
theorem conclude_unw_or_unw {f : Mat → Mat → Except Raised State} (hl : ∀ k ∈ l, k < 8)
    (h : matrixReg ra s = none ∨ matrixReg rb s = none) :
    conclude w s (goodRegs l >>= fun _ => sourceMatrix ra s >>= fun A => sourceMatrix rb s >>= f A) =
      .next (takeFault ⟨.unwritten, 0#64⟩ w s) := by
  rw [goodRegs_ok hl, except_bind_ok]
  exact conclude_written_or_none h

/-- A source matrix and MOD are read one after the other; either may have no value. -/
theorem conclude_unw_or_unwMod {f : Mat → Int → Except Raised State} (hl : ∀ k ∈ l, k < 8)
    (h : matrixReg ra s = none ∨ s.modReg = none) :
    conclude w s (goodRegs l >>= fun _ => sourceMatrix ra s >>= fun A => modulus s >>= f A) =
      .next (takeFault ⟨.unwritten, 0#64⟩ w s) := by
  cases hA : matrixReg ra s with
  | none => exact conclude_unw hl hA
  | some A =>
    have hmod : s.modReg = none := h.resolve_left (hA ▸ Option.some_ne_none A)
    rw [conclude_source hl hA, modulus_none hmod, except_bind_error, conclude_error]

theorem conclude_source_modulus {f : Mat → Int → Except Raised State} (hl : ∀ k ∈ l, k < 8)
    (hA : matrixReg ra s = some A) (hn : s.modReg = some n) :
    conclude w s (goodRegs l >>= fun _ => sourceMatrix ra s >>= fun A => modulus s >>= f A) =
      conclude w s (f A n.toNat) := by
  rw [conclude_source hl hA, modulus_some hn, except_bind_ok]

end Checks

/-! What the matrix commands store, entry by entry. -/

/-- MMUL's product (R81). -/
def product (A B : Mat) : Mat := buildMatrix A.rows B.cols fun a b => trunc64 (productEntry A B a b)

/-- MRED's reduction (R82). -/
def reduced (A : Mat) (n : Int) : Mat := buildMatrix A.rows A.cols fun a b => trunc64 (entryInt A a b % n)

/-- MINV's inverse (R88). -/
def inverse (A : Mat) (n : Int) : Mat :=
  buildMatrix A.rows A.rows fun a b => trunc64 (adj A.rows (entryInt A) a b * invMod (detMod A n) n % n)

/-- MST's matrix: `A` with the entry `[i][j]` replaced by `v` (R78). -/
def withEntry (A : Mat) (i j : Nat) (v : Word) : Mat :=
  buildMatrix A.rows A.cols fun a b => if a = i ∧ b = j then v else entry A a b

/-- Every entry of the product fits 64 bits (R81). -/
def ProductFits (A B : Mat) : Prop := ∀ a < A.rows, ∀ b < B.cols, fits64 (productEntry A B a b) = true

theorem entry_buildMatrix_zero (r c a b : Nat) : entry (buildMatrix r c fun _ _ => 0#64) a b = 0#64 := by
  by_cases ha : a < r
  · by_cases hb : b < c <;> simp [entry, buildMatrix, ha, hb]
  · simp [entry, buildMatrix, ha]

theorem entry_withEntry_same {v : Word} (hi : i < A.rows) (hj : j < A.cols) : entry (withEntry A i j v) i j = v := by
  rw [withEntry, entry_buildMatrix _ hi hj, if_pos ⟨rfl, rfl⟩]

theorem entry_withEntry_of_ne {v : Word} {a b : Nat} (ha : a < A.rows) (hb : b < A.cols) (hne : ¬(a = i ∧ b = j)) :
    entry (withEntry A i j v) a b = entry A a b := by
  rw [withEntry, entry_buildMatrix _ ha hb, if_neg hne]

theorem trunc64_entryInt (A : Mat) (a b : Nat) : trunc64 (entryInt A a b) = entry A a b :=
  BitVec.ofInt_toInt

theorem productEntry_eq_sum (A B : Mat) (a b : Nat) :
    productEntry A B a b = ∑ t ∈ Finset.range A.cols, entryInt A a t * entryInt B t b :=
  sumTo_eq_sum ..

theorem entryInt_product (hfits : ProductFits A B) {a b : Nat} (ha : a < A.rows) (hb : b < B.cols) :
    entryInt (product A B) a b = ∑ t ∈ Finset.range A.cols, entryInt A a t * entryInt B t b := by
  rw [entryInt, product, entry_buildMatrix _ ha hb, sext64_trunc64 (hfits a ha b hb), productEntry_eq_sum]

theorem emod_range (hn : 2 ≤ sext64 n) (x : Int) : 0 ≤ x % n.toNat ∧ x % n.toNat < n.toNat := by
  have := modulus_range hn
  exact ⟨Int.emod_nonneg x (by omega), Int.emod_lt_of_pos x (by omega)⟩

/-- A residue modulo MOD is stored exactly, read signed or unsigned (R14, R91). -/
theorem trunc64_emod (hn : 2 ≤ sext64 n) (x : Int) :
    sext64 (trunc64 (x % n.toNat)) = x % n.toNat ∧ ((trunc64 (x % n.toNat)).toNat : Int) = x % n.toNat := by
  obtain ⟨h0, hlt⟩ := emod_range hn x
  exact trunc64_of_nonneg h0 (hlt.trans (modulus_range hn).2)

theorem entryInt_reduced (hn : 2 ≤ sext64 n) {a b : Nat} (ha : a < A.rows) (hb : b < A.cols) :
    entryInt (reduced A n.toNat) a b = entryInt A a b % n.toNat := by
  rw [entryInt, reduced, entry_buildMatrix _ ha hb, (trunc64_emod hn _).1]

theorem entryInt_inverse (hn : 2 ≤ sext64 n) {a b : Nat} (ha : a < A.rows) (hb : b < A.rows) :
    entryInt (inverse A n.toNat) a b =
      adj A.rows (entryInt A) a b * invMod (detMod A n.toNat) n.toNat % n.toNat := by
  rw [entryInt, inverse, entry_buildMatrix _ ha hb, (trunc64_emod hn _).1]

theorem detMod_eq (A : Mat) (n : Int) : detMod A n = (squareMatrix A).det % n :=
  congrArg (· % n) (det_eq_matrix_det A.rows (entryInt A))

/-- DOUT or FINFO holds the determinant modulo MOD as it is. -/
theorem toNat_trunc64_detMod (hn : 2 ≤ sext64 n) (A : Mat) :
    ((trunc64 (detMod A n.toNat)).toNat : Int) = (squareMatrix A).det % n.toNat := by
  rw [detMod_eq, (trunc64_emod hn _).2]

/-! The engine's arithmetic commands where they complete. -/

theorem exec_mmul (hrd : rd < 8) (hra : ra < 8) (hrb : rb < 8) (hA : matrixReg ra s = some A)
    (hB : matrixReg rb s = some B) (hdim : A.cols = B.rows) (hfits : ProductFits A B) :
    exec (.mmul rd ra rb) s = .next (writeMatrix rd (product A B) s) := by
  rw [exec, execMmul, conclude_source (by simp [hrd, hra, hrb]) hA, sourceMatrix_some hB, except_bind_ok,
    conclude_require_pos hdim, conclude_require_pos (allEntries_iff.2 hfits)]
  rfl

theorem exec_mred (hrd : rd < 8) (hra : ra < 8) (hA : matrixReg ra s = some A) (hn : s.modReg = some n) :
    exec (.mred rd ra) s = .next (writeMatrix rd (reduced A n.toNat) s) :=
  conclude_source_modulus (by simp [hrd, hra]) hA hn

theorem exec_minv (hrd : rd < 8) (hra : ra < 8) (hA : matrixReg ra s = some A) (hn : s.modReg = some n)
    (hsquare : A.rows = A.cols) (hunit : Int.gcd (detMod A n.toNat) n.toNat = 1) :
    exec (.minv rd ra) s = .next (writeMatrix rd (inverse A n.toNat) s) := by
  rw [exec, execMinv, conclude_source_modulus (by simp [hrd, hra]) hA hn, conclude_require_pos hsquare,
    conclude_require_pos hunit]
  rfl

end Sys2Proof.Machine
end

section
/-! PROOFS. The statements about the single matrix commands: creating, filling and reading a register (R77 to
R80), product, reduction, transpose and zero test (R81, R82, R86, R90), determinant, inverse and key check (R87 to
R89). -/

namespace Sys2Proof.Machine

/-- Settles O40, by MSHAPE's two checks. -/
theorem mshapeEffect : Obligations.MshapeEffect := by
  refine ⟨fun rd hrd i hi j hj => ?_, fun s rd i j => ⟨fun h => conclude_badReg (by simpa using h),
    fun hrd hshape => ?_, fun hrd hi hi8 hj hj8 => ?_⟩⟩
  · simpa [encode] using encodingFormula 0x20#8 rd 0 0 i j hrd (by decide) (by decide) hi hj
  · rw [Faults, exec, execMshape, goodRegs_ok (by simpa using hrd), except_bind_ok]
    exact conclude_require_neg (by simp only [Config.dmax]; omega)
  · refine ⟨_, ?_, rfl, rfl, buildMatrix_full i j _, entry_buildMatrix_zero i j⟩
    rw [exec, execMshape, goodRegs_ok (by simpa using hrd), except_bind_ok]
    exact conclude_require_pos ⟨hi, hi8, hj, hj8⟩

/-- Settles O41, by MST's checks; the matrix stored differs from the old one in the entry addressed. -/
theorem mstEffect : Obligations.MstEffect := by
  refine ⟨fun rd hrd i hi j hj => ?_, fun s rd i j => ⟨fun h => conclude_badReg (by simpa using h),
    fun hrd hnone => conclude_unw (by simpa using hrd) hnone, fun A hrd hA =>
    ⟨fun hindex => ?_, fun hi hj => ⟨withEntry A i j s.din, ?_, rfl, rfl, buildMatrix_full ..,
      entry_withEntry_same hi hj, fun a ha b hb => entry_withEntry_of_ne ha hb⟩⟩⟩⟩
  · simpa [encode] using encodingFormula 0x21#8 rd 0 0 i j hrd (by decide) (by decide) hi hj
  · exact (conclude_source (by simpa using hrd) hA).trans (conclude_require_neg (by omega))
  · exact (conclude_source (by simpa using hrd) hA).trans (conclude_require_pos ⟨hi, hj⟩)

/-- Settles O42, by MLD's checks; an entry read as an integer is given back as its pattern. -/
theorem mldEffect : Obligations.MldEffect := by
  refine ⟨fun ra hra i hi j hj => ?_, fun s ra i j => ⟨fun h => conclude_badReg (by simpa using h),
    fun hra hnone => conclude_unw (by simpa using hra) hnone, fun A hra hA =>
    ⟨fun hindex => ?_, fun hi hj => ?_⟩⟩⟩
  · simpa [encode] using encodingFormula 0x22#8 0 ra 0 i j (by decide) hra (by decide) hi hj
  · exact (conclude_source (by simpa using hra) hA).trans (conclude_require_neg (by omega))
  · rw [← trunc64_entryInt]
    exact (conclude_source (by simpa using hra) hA).trans (conclude_require_pos ⟨hi, hj⟩)

/-- Settles O43, by MDIM's checks. -/
theorem mdimEffect : Obligations.MdimEffect := by
  refine ⟨fun ra hra => ?_, fun s ra => ⟨fun h => conclude_badReg (by simpa using h),
    fun hra hnone => conclude_unw (by simpa using hra) hnone, fun A hra hA => ?_⟩⟩
  · simpa [encode] using encodingFormula 0x23#8 0 ra 0 0 0 (by decide) hra (by decide) (by decide) (by decide)
  · exact conclude_source (by simpa using hra) hA

/-- Settles O44, by MMUL's checks in their order; overflow is decided on the exact entries. -/
theorem mmulEffect : Obligations.MmulEffect := by
  refine ⟨fun rd hrd ra hra rb hrb => ?_, fun s rd ra rb => ⟨fun h => conclude_badReg (by simpa using h),
    fun hrd hra hrb hnone => conclude_unw_or_unw (by simp [hrd, hra, hrb]) hnone,
    fun A B hrd hra hrb hA hB => ⟨fun hdim => ?_, fun p hp hdim => ⟨fun hover => ?_, fun hrange => ?_⟩⟩⟩⟩
  · simpa [encode] using encodingFormula 0x24#8 rd ra rb 0 0 hrd hra hrb (by decide) (by decide)
  · rw [Faults, exec, execMmul, conclude_source (by simp [hrd, hra, hrb]) hA, sourceMatrix_some hB, except_bind_ok]
    exact conclude_require_neg hdim
  · have hnotFits : ¬allEntries A.rows B.cols (fun a b => fits64 (productEntry A B a b)) = true := by
      obtain ⟨a, ha, b, hb, hout⟩ := hover
      intro hall
      have hfits := fits64_iff.1 (allEntries_iff.1 hall a ha b hb)
      rw [productEntry_eq_sum, ← hp] at hfits
      omega
    rw [Faults, exec, execMmul, conclude_source (by simp [hrd, hra, hrb]) hA, sourceMatrix_some hB,
      except_bind_ok, conclude_require_pos hdim]
    exact conclude_require_neg hnotFits
  · have hfits : ProductFits A B := fun a ha b hb => by
      rw [fits64_iff, productEntry_eq_sum, ← hp]
      exact hrange a ha b hb
    refine ⟨_, exec_mmul hrd hra hrb hA hB hdim hfits, rfl, rfl, buildMatrix_full .., fun a ha b hb => ?_⟩
    rw [entryInt_product hfits ha hb, hp]

/-- Settles O45: a remainder of the Euclidean division is in `[0, N)` and differs by a multiple of N. -/
theorem mredEffect : Obligations.MredEffect := by
  refine ⟨fun rd hrd ra hra => ?_, fun s rd ra => ⟨fun h => conclude_badReg (by simpa using h),
    fun hrd hra hnone => conclude_unw_or_unwMod (by simp [hrd, hra]) hnone, fun A n hrd hra hA hn hrange =>
    ⟨_, exec_mred hrd hra hA hn, rfl, rfl, buildMatrix_full .., fun a ha b hb => ?_⟩⟩⟩
  · simpa [encode] using encodingFormula 0x25#8 rd ra 0 0 0 hrd hra (by decide) (by decide) (by decide)
  · rw [entryInt_reduced hrange ha hb]
    obtain ⟨h0, hlt⟩ := emod_range hrange (entryInt A a b)
    exact ⟨h0, hlt, Int.dvd_self_sub_emod⟩

/-- Settles O46: the second transpose, in place, restores a full matrix. -/
theorem mtrnEffect : Obligations.MtrnEffect := by
  refine ⟨fun rd hrd ra hra => ?_, fun s rd ra => ⟨fun h => conclude_badReg (by simpa using h),
    fun hrd hra hnone => conclude_unw (by simp [hrd, hra]) hnone, fun A hrd hra hA =>
    ⟨_, exec_mtrn hrd hra hA, rfl, rfl, buildMatrix_full .., fun a ha b hb => entry_transposed ha hb,
    fun hfull => ?_⟩⟩⟩
  · simpa [encode] using encodingFormula 0x26#8 rd ra 0 0 0 hrd hra (by decide) (by decide) (by decide)
  · rw [exec_mtrn hrd hrd (matrixReg_writeMatrix_self s rd _ hrd), writeMatrix_writeMatrix,
      transposed_transposed hfull]

/-- Settles O47, by the two answers of the test over all entries. -/
theorem mztEffect : Obligations.MztEffect := by
  refine ⟨fun ra hra => ?_, fun s ra => ⟨fun h => conclude_badReg (by simpa using h),
    fun hra hnone => conclude_unw (by simpa using hra) hnone, fun A hra hA => ?_⟩⟩
  · simpa [encode] using encodingFormula 0x2A#8 0 ra 0 0 0 (by decide) hra (by decide) (by decide) (by decide)
  · have htest : allEntries A.rows A.cols (fun a b => entryInt A a b == 0) = true ↔
        ∀ a < A.rows, ∀ b < A.cols, entryInt A a b = 0 := by simp only [allEntries_iff, beq_iff_eq]
    rw [exec, execMzt, conclude_source (by simpa using hra) hA]
    refine ⟨fun hzero => ?_, fun ⟨a, ha, b, hb, hne⟩ => ?_⟩
    · rw [if_pos (htest.2 hzero)]
      rfl
    · rw [if_neg fun hall => hne (htest.1 hall a ha b hb)]
      rfl

/-- Settles O51, by MDET's checks and the determinant as Mathlib has it. -/
theorem mdetEffect : Obligations.MdetEffect := by
  refine ⟨fun ra hra => ?_, fun s ra => ⟨fun h => conclude_badReg (by simpa using h),
    fun hra hnone => conclude_unw_or_unwMod (by simpa using hra) hnone, fun A n hra hA hn =>
    ⟨fun hdim => ?_, fun hsquare hrange => ⟨_, ?_, toNat_trunc64_detMod hrange A⟩⟩⟩⟩
  · simpa [encode] using encodingFormula 0x27#8 0 ra 0 0 0 (by decide) hra (by decide) (by decide) (by decide)
  · exact (conclude_source_modulus (by simpa using hra) hA hn).trans (conclude_require_neg hdim)
  · exact (conclude_source_modulus (by simpa using hra) hA hn).trans (conclude_require_pos hsquare)

/-- Settles O52, by MINV's checks; the inverse of the determinant is `inv_mod`'s. -/
theorem minvEffect : Obligations.MinvEffect := by
  refine ⟨fun rd hrd ra hra => ?_, fun s rd ra => ⟨fun h => conclude_badReg (by simpa using h),
    fun hrd hra hnone => conclude_unw_or_unwMod (by simp [hrd, hra]) hnone, fun A n hrd hra hA hn =>
    ⟨fun hdim => ?_, fun d hd hsquare hrange => ?_⟩⟩⟩
  · simpa [encode] using encodingFormula 0x28#8 rd ra 0 0 0 hrd hra (by decide) (by decide) (by decide)
  · exact (conclude_source_modulus (by simp [hrd, hra]) hA hn).trans (conclude_require_neg hdim)
  · obtain ⟨hN, -⟩ := modulus_range hrange
    rw [← detMod_eq] at hd
    subst hd
    refine ⟨fun hunit => ⟨_, (toNat_trunc64_detMod hrange A).trans (detMod_eq A _).symm, ?_⟩, fun hunit => ?_⟩
    · rw [Faults, exec, execMinv, conclude_source_modulus (by simp [hrd, hra]) hA hn, conclude_require_pos hsquare]
      exact conclude_require_neg hunit
    · refine ⟨invMod (detMod A n.toNat) n.toNat, _, exec_minv hrd hra hA hn hsquare hunit, invMod_nonneg hN,
        invMod_lt hN, mul_invMod_emod hN (emod_range hrange _).1 hunit, rfl, rfl, buildMatrix_full .., fun a b => ?_⟩
      rw [entryInt_inverse hrange a.isLt b.isLt, adj_eq_adjugate]
      rfl

/-- Settles O53, by MCHK's checks, which are MINV's. -/
theorem mchkEffect : Obligations.MchkEffect := by
  refine ⟨fun ra hra => ?_, fun s ra => ⟨fun h => conclude_badReg (by simpa using h),
    fun hra hnone => conclude_unw_or_unwMod (by simpa using hra) hnone, fun A n hra hA hn =>
    ⟨fun hdim => ?_, fun d hd hsquare hrange => ⟨_, (toNat_trunc64_detMod hrange A).trans hd.symm, ?_⟩⟩⟩⟩
  · simpa [encode] using encodingFormula 0x29#8 0 ra 0 0 0 (by decide) hra (by decide) (by decide) (by decide)
  · exact (conclude_source_modulus (by simpa using hra) hA hn).trans (conclude_require_neg hdim)
  · rw [Faults, exec, execMchk, conclude_source_modulus (by simpa using hra) hA hn, conclude_require_pos hsquare, hd,
      ← detMod_eq]
    exact ⟨conclude_require_neg, conclude_require_pos⟩

end Sys2Proof.Machine
end

section
/-! PROOFS. What MINV stores is the inverse modulo N (R94). -/

namespace Sys2Proof.Machine

variable {A B : Mat} {n : Word} {N r : Nat}

/-- The determinant shares no factor with N exactly when it is a unit modulo N. -/
theorem gcd_detMod_eq_one_iff (A : Mat) (N : Nat) :
    Int.gcd (detMod A N) N = 1 ↔ IsUnit (residues N A.rows A.rows (entryInt A)).det := by
  rw [det_residues, ZMod.coe_int_isUnit_iff_isCoprime, Int.isCoprime_iff_gcd_eq_one, detMod, Int.gcd_emod,
    Int.gcd_comm]

/-- A product of arrays that is I modulo N, in the terms of R94 and as matrices over the integers modulo N. -/
theorem mul_residues_eq_one_iff (hN : 2 ≤ N) (X Y : Nat → Nat → Int) :
    residues N r r X * residues N r r Y = 1 ↔
      ∀ a < r, ∀ b < r, (∑ k ∈ Finset.range r, X a k * Y k b) % N = if a = b then 1 else 0 := by
  have hidentity (a b : Nat) : (if a = b then 1 else 0 : Int) % N = if a = b then 1 else 0 :=
    Int.emod_eq_of_lt (by split <;> omega) (by split <;> omega)
  rw [residues_mul, ← residues_one, residues_eq_iff]
  simp only [hidentity]

theorem residues_inverse (hn : 2 ≤ sext64 n) (A : Mat) :
    residues n.toNat A.rows A.rows (entryInt (inverse A n.toNat)) =
      (invMod (detMod A n.toNat) n.toNat : ZMod n.toNat) •
        (residues n.toNat A.rows A.rows (entryInt A)).adjugate := by
  rw [adjugate_residues]
  ext a b
  rw [Matrix.smul_apply, residues_apply, residues_apply, entryInt_inverse hn a.isLt b.isLt, ZMod.intCast_mod,
    Int.cast_mul, mul_comm, smul_eq_mul]

/-- `d · inv_mod(d, N) = 1` over the integers modulo N. -/
theorem invMod_mul_det (hn : 2 ≤ sext64 n) (hunit : Int.gcd (detMod A n.toNat) n.toNat = 1) :
    (invMod (detMod A n.toNat) n.toNat : ZMod n.toNat) * (residues n.toNat A.rows A.rows (entryInt A)).det = 1 := by
  have hinv := mul_invMod_emod (d := detMod A n.toNat) (modulus_range hn).1 (emod_range hn _).1 hunit
  have hdet : (detMod A n.toNat : ZMod n.toNat) = (residues n.toNat A.rows A.rows (entryInt A)).det := by
    rw [detMod, ZMod.intCast_mod, det_residues]
  have hcast := congrArg (Int.cast : Int → ZMod n.toNat) hinv
  rwa [ZMod.intCast_mod, Int.cast_mul, Int.cast_one, mul_comm, hdet] at hcast

/-- The inverse that MINV stores, on both sides (R94). -/
theorem residues_mul_inverse (hn : 2 ≤ sext64 n) (hunit : Int.gcd (detMod A n.toNat) n.toNat = 1) :
    residues n.toNat A.rows A.rows (entryInt A) *
      residues n.toNat A.rows A.rows (entryInt (inverse A n.toNat)) = 1 := by
  rw [residues_inverse hn, Matrix.mul_smul, Matrix.mul_adjugate, smul_smul, invMod_mul_det hn hunit, one_smul]

theorem residues_inverse_mul (hn : 2 ≤ sext64 n) (hunit : Int.gcd (detMod A n.toNat) n.toNat = 1) :
    residues n.toNat A.rows A.rows (entryInt (inverse A n.toNat)) *
      residues n.toNat A.rows A.rows (entryInt A) = 1 :=
  mul_eq_one_comm.1 (residues_mul_inverse hn hunit)

theorem entryInt_inverse_range (hn : 2 ≤ sext64 n) {a b : Nat} (ha : a < A.rows) (hb : b < A.rows) :
    0 ≤ entryInt (inverse A n.toNat) a b ∧ entryInt (inverse A n.toNat) a b < n.toNat := by
  rw [entryInt_inverse hn ha hb]
  exact emod_range hn _

/-- Settles O54: a left and a right inverse agree modulo N, and an inverse makes the determinant a unit. -/
theorem minvStoresTheUniqueInverse : Obligations.MinvStoresTheUniqueInverse := by
  intro s rd ra A n hrd hra hA hsquare hn hrange
  have hN : 2 ≤ n.toNat := by have := modulus_range hrange; omega
  rw [← detMod_eq]
  refine ⟨fun hunit => ⟨_, exec_minv hrd hra hA hn hsquare hunit, fun a ha b hb => ?_,
    fun Y hY hinv a ha b hb => ?_⟩, fun hunit => ?_⟩
  · obtain ⟨h0, hlt⟩ := entryInt_inverse_range hrange ha hb
    exact ⟨h0, hlt, (mul_residues_eq_one_iff hN _ _).1 (residues_mul_inverse hrange hunit) a ha b hb,
      (mul_residues_eq_one_iff hN _ _).1 (residues_inverse_mul hrange hunit) a ha b hb⟩
  · have hsame := left_inv_eq_right_inv (residues_inverse_mul hrange hunit) ((mul_residues_eq_one_iff hN _ _).2 hinv)
    obtain ⟨h0, hlt⟩ := entryInt_inverse_range hrange ha hb
    obtain ⟨hY0, hYlt⟩ := hY a ha b hb
    rw [← Int.emod_eq_of_lt h0 hlt, residues_eq_iff.1 hsame a ha b hb, Int.emod_eq_of_lt hY0 hYlt]
  · rintro ⟨Y, hinv⟩
    refine hunit ((gcd_detMod_eq_one_iff A _).2 ?_)
    exact Matrix.isUnit_det_of_right_inverse ((mul_residues_eq_one_iff hN _ _).2 hinv)

end Sys2Proof.Machine
end

section
/-! PROOFS. Runs of matrix commands: the Hill cipher's round trip (R95), and the syndrome as a product modulo 2
(R96). -/

namespace Sys2Proof.Machine

variable {s t : State} {w : Word} {A B K V : Mat} {n : Word} {rd ra rb : Nat}

/-! A run that ends without a fault had none on the way, as long as no CLRF can remove it (R104, R111). -/

/-- The commands complete one after another, from the first state to the second. -/
def Completes : List Instr → State → State → Prop
  | [], s, t => s = t
  | i :: rest, s, t => ∃ u, exec i s = .next u ∧ u.fault = false ∧ Completes rest u t

/-- A command of the hardware that is not CLRF; while a fault is recorded it is dropped (R104). -/
def Droppable (i : Instr) : Prop := i.wellFormed = true ∧ i ≠ .clrf

theorem Droppable.encode_ne {i : Instr} (h : Droppable i) : encode i ≠ 0x0000000001000000#64 := by
  intro he
  have hdecode : decode (encode i) = .ok .clrf := he ▸ decodeOfEncode .clrf rfl
  rw [decodeOfEncode i h.1] at hdecode
  exact h.2 (Except.ok.inj hdecode)

theorem runCommands_faulted {l : List Instr} (hs : s.fault = true) (hl : ∀ i ∈ l, Droppable i) :
    runCommands l s = .next s := by
  induction l with
  | nil => rfl
  | cons i rest ih =>
    rw [List.forall_mem_cons] at hl
    rw [runCommands, executeCommand_dropped hs hl.1.encode_ne]
    exact ih hl.2

theorem completes_of_runCommands {l : List Instr} (hl : ∀ i ∈ l, Droppable i) (hs : s.fault = false)
    (h : runCommands l s = .next t) (ht : t.fault = false) : Completes l s t := by
  induction l generalizing s with
  | nil => exact Host.Outcome.next.inj h
  | cons i rest ih =>
    rw [List.forall_mem_cons] at hl
    obtain ⟨u, hu⟩ := exec_next i s
    rw [runCommands_next hs hu hl.1.1] at h
    cases huf : u.fault with
    | false => exact ⟨u, hu, huf, ih hl.2 huf h⟩
    | true =>
      rw [runCommands_faulted huf hl.2] at h
      cases h
      exact absurd ht (by simp [huf])

/-! What a completed arithmetic command says about the state it started from. -/

theorem ok_of_conclude {r : Except Raised State} (h : conclude w s r = .next t) (ht : t.fault = false) : r = .ok t := by
  obtain ⟨u, rfl, hu⟩ | ⟨f, rfl, hf⟩ := conclude_cases w s r
  · rw [hu] at h
    cases h
    rfl
  · rw [hf] at h
    cases h
    cases ht

theorem sourceMatrix_eq_ok {k : Nat} : sourceMatrix k s = .ok A ↔ matrixReg k s = some A := written_eq_ok

theorem goodRegs_eq_ok {l : List Nat} : goodRegs l = .ok () ↔ ∀ k ∈ l, k < 8 := require_eq_ok

theorem mmul_completed (h : exec (.mmul rd ra rb) s = .next t) (ht : t.fault = false) :
    ∃ A B, rd < 8 ∧ matrixReg ra s = some A ∧ matrixReg rb s = some B ∧ A.cols = B.rows ∧ ProductFits A B ∧
      t = writeMatrix rd (product A B) s := by
  have hok := ok_of_conclude h ht
  simp only [bind_eq_ok] at hok
  obtain ⟨_, hregs, A, hA, B, hB, _, hdim, _, hfits, hnext⟩ := hok
  exact ⟨A, B, goodRegs_eq_ok.1 hregs rd (by simp), sourceMatrix_eq_ok.1 hA, sourceMatrix_eq_ok.1 hB,
    require_eq_ok.1 hdim, allEntries_iff.1 (require_eq_ok.1 hfits), (Except.ok.inj hnext).symm⟩

theorem mred_completed (h : exec (.mred rd ra) s = .next t) (ht : t.fault = false) (hn : s.modReg = some n) :
    ∃ A, matrixReg ra s = some A ∧ t = writeMatrix rd (reduced A n.toNat) s := by
  have hok := ok_of_conclude h ht
  simp only [bind_eq_ok] at hok
  obtain ⟨_, _, A, hA, N, hN, hnext⟩ := hok
  rw [modulus_some hn] at hN
  cases hN
  exact ⟨A, sourceMatrix_eq_ok.1 hA, (Except.ok.inj hnext).symm⟩

theorem minv_completed (h : exec (.minv rd ra) s = .next t) (ht : t.fault = false) (hn : s.modReg = some n) :
    ∃ A, rd < 8 ∧ matrixReg ra s = some A ∧ A.rows = A.cols ∧ Int.gcd (detMod A n.toNat) n.toNat = 1 ∧
      t = writeMatrix rd (inverse A n.toNat) s := by
  have hok := ok_of_conclude h ht
  simp only [bind_eq_ok] at hok
  obtain ⟨_, hregs, A, hA, N, hN, _, hsquare, _, hunit, hnext⟩ := hok
  rw [modulus_some hn] at hN
  cases hN
  exact ⟨A, goodRegs_eq_ok.1 hregs rd (by simp), sourceMatrix_eq_ok.1 hA, require_eq_ok.1 hsquare,
    require_eq_ok.1 hunit, (Except.ok.inj hnext).symm⟩

/-! The Hill cipher. -/

theorem residues_reduced {r c : Nat} (hn : 2 ≤ sext64 n) (hr : A.rows = r) (hc : A.cols = c) :
    residues n.toNat r c (entryInt (reduced A n.toNat)) = residues n.toNat r c (entryInt A) := by
  subst hr hc
  exact residues_eq_iff.2 fun a ha b hb => by rw [entryInt_reduced hn ha hb, Int.emod_emod_of_dvd _ dvd_rfl]

theorem residues_product {N r m c : Nat} (hfits : ProductFits A B) (hr : A.rows = r) (hm : A.cols = m)
    (hc : B.cols = c) : residues N r c (entryInt (product A B)) =
      residues N r m (entryInt A) * residues N m c (entryInt B) := by
  subst hr hm hc
  rw [residues_mul, residues_eq_iff]
  exact fun a ha b hb => by rw [entryInt_product hfits ha hb]

theorem entry_eq_of_entryInt_eq {a b : Nat} (h : entryInt A a b = entryInt B a b) : entry A a b = entry B a b :=
  BitVec.eq_of_toInt_eq h

/-- The block encoded with the key `K` (R95). -/
def hillEncoded (K V : Mat) (N : Int) : Mat := reduced (product K V) N

/-- Decoding an encoded block gives it back. -/
theorem hill_decode_encode (hn : 2 ≤ sext64 n) (hsquare : K.rows = K.cols) (hdim : K.cols = V.rows) (hfull : V.full)
    (hV : ∀ a < V.rows, ∀ b < V.cols, 0 ≤ entryInt V a b ∧ entryInt V a b < n.toNat)
    (hunit : Int.gcd (detMod K n.toNat) n.toNat = 1) (hfits : ProductFits K V)
    (hfits' : ProductFits (inverse K n.toNat) (hillEncoded K V n.toNat)) :
    reduced (product (inverse K n.toNat) (hillEncoded K V n.toNat)) n.toNat = V := by
  have hrows : K.rows = V.rows := hsquare.trans hdim
  have hencoded : residues n.toNat K.rows V.cols (entryInt (hillEncoded K V n.toNat)) =
      residues n.toNat K.rows K.rows (entryInt K) * residues n.toNat K.rows V.cols (entryInt V) :=
    (residues_reduced hn rfl rfl).trans (residues_product hfits rfl hsquare.symm rfl)
  have hdecoded : residues n.toNat K.rows V.cols (entryInt (product (inverse K n.toNat) (hillEncoded K V n.toNat))) =
      residues n.toNat K.rows V.cols (entryInt V) := by
    rw [residues_product (r := K.rows) (m := K.rows) (c := V.cols) hfits' rfl rfl rfl, hencoded, ← Matrix.mul_assoc,
      residues_inverse_mul hn hunit, Matrix.one_mul]
  refine full_ext (buildMatrix_full ..) hfull hrows rfl fun a ha b hb => entry_eq_of_entryInt_eq ?_
  have haV : a < V.rows := hrows ▸ ha
  obtain ⟨h0, hlt⟩ := hV a haV b hb
  calc _ = entryInt (product (inverse K n.toNat) (hillEncoded K V n.toNat)) a b % n.toNat := entryInt_reduced hn ha hb
    _ = entryInt V a b % n.toNat := residues_eq_iff.1 hdecoded a ha b hb
    _ = entryInt V a b := Int.emod_eq_of_lt h0 hlt

/-- A matrix register holds what was last written to it. -/
theorem eq_of_matrixReg_writeMatrix {k : Nat} (hk : k < 8) (h : matrixReg k (writeMatrix k A s) = some B) : A = B := by
  rwa [matrixReg_writeMatrix_self _ _ _ hk, Option.some_inj] at h

/-- Settles O56: every command of the run completes, K is still in place for MINV, and what the run leaves in `e`
is the block decoded again. -/
theorem hillRoundTrip : Obligations.HillRoundTrip := by
  intro s t k v d m e V n hs hf hk hd hm he hdk hmd hv hn hrange h ht
  have hv8 := lt_of_matrixReg_eq_some s hv
  have hdrop : ∀ i ∈ [.mmul d k v, .mred d d, .minv m k, .mmul e m d, .mred e e], Droppable i := by
    simp [Droppable, Instr.wellFormed, fitsField]
    omega
  obtain ⟨_, hencode, hf1, _, hreduce, hf2, _, hinvert, hf3, _, hdecode, hf4, _, hreduce', hf5, rfl⟩ :=
    completes_of_runCommands hdrop hf h ht
  obtain ⟨K, V', hd8, hK, hV, hdim, hfits, rfl⟩ := mmul_completed hencode hf1
  obtain ⟨E, hE, rfl⟩ := mred_completed hreduce hf2 hn
  obtain ⟨K', hm8, hK', hsquare, hunit, rfl⟩ := minv_completed hinvert hf3 hn
  obtain ⟨X, F, he8, hX, hF, -, hfits', rfl⟩ := mmul_completed hdecode hf4
  obtain ⟨D, hD, rfl⟩ := mred_completed hreduce' hf5 hn
  obtain rfl : V = V' := Option.some.inj (hv.symm.trans hV)
  obtain rfl := eq_of_matrixReg_writeMatrix hd8 hE
  obtain rfl : K = K' := by
    rwa [matrixReg_writeMatrix_of_ne _ _ hdk.symm, matrixReg_writeMatrix_of_ne _ _ hdk.symm, hK,
      Option.some_inj] at hK'
  obtain rfl := eq_of_matrixReg_writeMatrix hm8 hX
  rw [matrixReg_writeMatrix_of_ne _ _ hmd.symm] at hF
  obtain rfl := eq_of_matrixReg_writeMatrix hd8 hF
  obtain rfl := eq_of_matrixReg_writeMatrix he8 hD
  obtain ⟨-, -, -, -, hfull⟩ := hs.matrices v V hv
  rw [matrixReg_writeMatrix_self _ _ _ he8]
  exact congrArg some
    (hill_decode_encode (hs.modulusRange n hn) hsquare hdim hfull hrange hunit hfits hfits')

/-! The syndrome on the engine. -/

section Syndrome

variable {H : BitVec 21} {x : BitVec 7} {r : Nat}

/-- A row of `H · U` over the integers, before the reduction modulo 2. -/
def rowSum (H : BitVec 21) (x : BitVec 7) (r : Nat) : Nat :=
  ∑ k ∈ Finset.range 7, (element H r k).toNat * (x.getLsbD k).toNat

theorem rowSum_le (H : BitVec 21) (x : BitVec 7) (r : Nat) : rowSum H x r ≤ 7 := by
  have hbit (k : Nat) : (element H r k).toNat * (x.getLsbD k).toNat ≤ 1 := by
    rw [← toNat_and_eq_mul]
    exact Bool.toNat_le _
  exact (Finset.sum_le_card_nsmul _ _ 1 fun k _ => hbit k).trans_eq rfl

theorem rowSum_mod_two (H : BitVec 21) (x : BitVec 7) (hr : r < 3) :
    rowSum H x r % 2 = ((syndrome H x).getLsbD r).toNat := by
  rw [getLsbD_syndrome H x hr, toNat_gfSum_and]
  rfl

theorem productEntry_eq_rowSum (hcols : A.cols = 7) (hr : r < 3)
    (hA : ∀ r < 3, ∀ k < 7, entryInt A r k = (element H r k).toNat)
    (hB : ∀ k < 7, entryInt B k 0 = (x.getLsbD k).toNat) : productEntry A B r 0 = rowSum H x r := by
  rw [productEntry_eq_sum, hcols, rowSum, Nat.cast_sum]
  refine Finset.sum_congr rfl fun k hk => ?_
  rw [hA r hr k (Finset.mem_range.1 hk), hB k (Finset.mem_range.1 hk), Nat.cast_mul]

end Syndrome

/-- Settles O57: the row sums are at most 7, so that MMUL completes, and MRED leaves their parities. -/
theorem syndromeOnTheEngine : Obligations.SyndromeOnTheEngine := by
  intro s d h u A B H x hf hd hh hu hmod hAreg hBreg hArows hAcols hBrows hBcols hA hB
  have hprod {r : Nat} (hr : r < 3) : productEntry A B r 0 = rowSum H x r := productEntry_eq_rowSum hAcols hr hA hB
  have hfits : ProductFits A B := fun r hr b hb => by
    obtain rfl : b = 0 := by omega
    have := rowSum_le H x r
    rw [hprod (hArows ▸ hr), fits64_iff]
    omega
  have hmul := exec_mmul hd hh hu hAreg hBreg (hAcols.trans hBrows.symm) hfits
  have hred := exec_mred (s := writeMatrix d (product A B) s) hd hd (matrixReg_writeMatrix_self s d _ hd) hmod
  have hmulFits : (Instr.mmul d h u).wellFormed = true := by simp [Instr.wellFormed, fitsField]; omega
  have hredFits : (Instr.mred d d).wellFormed = true := by simp [Instr.wellFormed, fitsField]; omega
  have hrun := (runCommands_next (rest := [.mred d d]) hf hmul hmulFits).trans (runCommands_single hf hred hredFits)
  refine ⟨_, _, hrun, hf, matrixReg_writeMatrix_self _ d _ hd, hArows, hBcols, fun r hr => ?_⟩
  have hrA : r < A.rows := hArows ▸ hr
  have hbB : 0 < B.cols := by omega
  calc entryInt (reduced (product A B) (2#64).toNat) r 0
    _ = entryInt (product A B) r 0 % 2 := entryInt_reduced (by decide) hrA hbB
    _ = (rowSum H x r : Int) % 2 := by rw [entryInt_product hfits hrA hbB, ← productEntry_eq_sum, hprod hr]
    _ = ((syndrome H x).getLsbD r).toNat := by rw [← rowSum_mod_two H x hr]; rfl

end Sys2Proof.Machine
end

section
/-! PROOFS. Faults: entry, what may raise one, the gate of the faulted state, and the return (R98, R102 to R105,
R112). -/

namespace Sys2Proof.Machine

variable {s t : State} {i : Instr}

/-- A command that finds no fault recorded completes and records none, or ends in the entry of a listed fault
(R102, R112). -/
theorem Effect.completed_or_fault (h : Effect i s t) (hs : s.fault = false) :
    (t.fault = false ∧ (i ≠ .clrf → t.fcode = s.fcode ∧ t.fcmd = s.fcmd ∧ t.finfo = s.finfo)) ∨
      ∃ f, Listed i f ∧ t = takeFault f (encode i) s := by
  cases h with
  | fault hf => exact .inr ⟨_, hf, rfl⟩
  | clear hi => exact .inl ⟨rfl, fun hne => absurd hi hne⟩
  | unchanged | modulus | dout | matrix | parity => exact .inl ⟨hs, fun _ => ⟨rfl, rfl, rfl⟩⟩
  | generator | decoder | block | codeword | syndrome | location => exact .inl ⟨hs, fun _ => ⟨rfl, rfl, rfl⟩⟩

/-- A command that ends with a fault recorded, where none was before, ends in the entry of a listed fault. -/
theorem exec_faulted (hs : s.fault = false) (h : exec i s = .next t) (ht : t.fault = true) :
    ∃ f, Listed i f ∧ t = takeFault f (encode i) s := by
  obtain ⟨hnone, -⟩ | hfault := (exec_effect h).completed_or_fault hs
  · exact absurd ht (by simp [hnone])
  · exact hfault

/-- A value written to CMD that ends in a fault, where none was before, ends in a fault entry that records that
value, whether or not it is a command (R103). -/
theorem executeCommand_faulted {w : Word} (hs : s.fault = false) (h : executeCommand w s = .next t)
    (ht : t.fault = true) :
    ∃ f : Raised, (f.cause ≠ .singularMatrix → f.info = 0#64) ∧ t = takeFault f w s := by
  cases hw : decode w with
  | ok i =>
    rw [executeCommand_legal hs hw] at h
    obtain ⟨f, ⟨-, hinfo⟩, rfl⟩ := exec_faulted hs h ht
    obtain ⟨-, hword⟩ := encodeOfDecode w i hw
    exact ⟨f, hinfo, by rw [hword]⟩
  | error e =>
    rw [executeCommand_illegal hs hw] at h
    cases h
    exact ⟨_, fun _ => rfl, rfl⟩

theorem exec_clrf (s : State) : exec .clrf s = .next (clearFault s) := rfl

/-- CLRF clears all that fault entry writes, so that none of it shows (R103, R105). -/
theorem clearFault_takeFault (f : Raised) (w : Word) (s : State) : clearFault (takeFault f w s) = clearFault s := rfl

/-- Settles O10: the step executes the value written, which the gate drops or lets through; the window serves
DIN and reads without asking for FAULT. -/
theorem faultedStateDropsCommands : Obligations.FaultedStateDropsCommands := by
  intro s rest hs
  refine ⟨fun w h hw => ?_, fun h => ?_, fun v h => step_write_din h, fun r h => step_read r h⟩
  · rw [step_write_cmd h]
    exact executeCommand_dropped hs hw
  · rw [step_write_cmd h]
    exact executeCommand_clrf { s with accesses := rest }

/-- Settles O17: every command answers a next state, and that state is a completion or a fault entry. -/
theorem commandCompletesOrOnlyFaults : Obligations.CommandCompletesOrOnlyFaults := by
  intro i s hs
  obtain ⟨t, ht⟩ := exec_next i s
  refine ⟨t, ht, ?_⟩
  obtain hcompleted | ⟨f, ⟨-, hinfo⟩, rfl⟩ := (exec_effect ht).completed_or_fault hs
  · exact .inl hcompleted
  · exact .inr ⟨f.cause, f.info, hinfo, ht, rfl⟩

/-- Settles O18: the step executes the value written in the state without the access served. -/
theorem faultEntryRecordsTheWrittenValue : Obligations.FaultEntryRecordsTheWrittenValue := by
  intro s t w rest ha hs h ht
  rw [step_write_cmd ha] at h
  obtain ⟨f, hinfo, rfl⟩ := executeCommand_faulted (s := { s with accesses := rest }) hs h ht
  exact ⟨f.cause, f.info, hinfo, rfl⟩

/-- Settles O19: the fault that the command enters is a listed one. -/
theorem onlyListedFaultsAreRaised : Obligations.OnlyListedFaultsAreRaised := by
  intro i s t hs h ht
  obtain ⟨f, ⟨hmem, -⟩, rfl⟩ := exec_faulted hs h ht
  exact ⟨f.cause, hmem, rfl⟩

/-- Settles O20: CLRF takes away what fault entry wrote and leaves the fault registers at 0, where the invariant
had them before the command. -/
theorem clrfUndoesTheFault : Obligations.ClrfUndoesTheFault := by
  intro i s t hinv hs h ht
  obtain ⟨f, -, rfl⟩ := exec_faulted hs h ht
  rw [exec_clrf, clearFault_takeFault, clearFault_eq_self hinv hs]

end Sys2Proof.Machine
end

section
/-! PROOFS. Reset: the values it leaves in the unit's registers, from any state (R26, R113, R114). -/

namespace Sys2Proof.Machine

variable {s : State} {rest : List HostAccess}

theorem step_reset (h : s.accesses = .reset :: rest) :
    step s = .next (resetUnit { s with accesses := rest }) := by
  rw [step_eq_serve h, serve]

@[simp] theorem matrixReg_resetUnit (k : Nat) (s : State) : matrixReg k (resetUnit s) = none :=
  matrixReg_reset k

/-- No row of the table of R22 shows a 1 after reset: each valid bit, FAULT and FCODE is 0. -/
theorem statusBit_resetUnit (s : State) (b : Nat) : statusBit (resetUnit s) b = false := by
  unfold statusBit
  rw [matrixReg_resetUnit]
  simp [resetUnit, State.reset]

theorem status_resetUnit (s : State) : status (resetUnit s) = 0#64 :=
  bitVector_eq_iff.2 fun b _ => (statusBit_resetUnit s b).trans BitVec.getLsbD_zero.symm

/-- Settles O1: the step answers the unit's reset state, whose matrix registers and STATUS have laws of their
own and whose other registers are those of the table of R26. -/
theorem resetPutsEveryRegisterAtItsValue : Obligations.ResetPutsEveryRegisterAtItsValue := by
  intro s rest h
  exact ⟨_, step_reset h, fun k => matrixReg_resetUnit k _, rfl, rfl, rfl, rfl, rfl, rfl, rfl, rfl, rfl, rfl,
    rfl, rfl, rfl, rfl, status_resetUnit _⟩

end Sys2Proof.Machine
end

section
/-! PROOFS. The order of service (R38, R107), and runs whose end shows that no fault was recorded on the way
(R104, R111, R124). -/

namespace Sys2Proof.Machine

variable {s t : State} {a : HostAccess} {w : Word} {n : Nat}

/-! The host's side of the state: the service of an access takes none that waits, and only a read adds a value
read. -/

theorem executeCommand_hostSide (h : executeCommand w s = .next t) :
    t.accesses = s.accesses ∧ t.reads = s.reads := by
  obtain rfl | rfl | ⟨i, hexec⟩ := executeCommand_cases h
  · exact ⟨rfl, rfl⟩
  · exact ⟨rfl, rfl⟩
  · obtain ⟨-, haccesses, hreads, -⟩ := registersChangeOnlyByTheirCommands i s t hexec
    exact ⟨haccesses, hreads⟩

theorem hostWrite_hostSide {off : Int} {width : Nat} (h : hostWrite off width w s = .next t) :
    t.accesses = s.accesses ∧ t.reads = s.reads := by
  obtain rfl | rfl | hcmd := hostWrite_cases h
  · exact ⟨rfl, rfl⟩
  · exact ⟨rfl, rfl⟩
  · exact executeCommand_hostSide hcmd

theorem serve_accesses (h : serve a s = .next t) : t.accesses = s.accesses := by
  cases a with
  | reset => cases h; rfl
  | read off width => obtain ⟨v, rfl⟩ := hostRead_next h; rfl
  | write off width v => exact (hostWrite_hostSide h).1

theorem serve_reads_of_not_read (h : serve a s = .next t) (ha : ∀ off width, a ≠ .read off width) :
    t.reads = s.reads := by
  cases a with
  | reset => cases h; rfl
  | read off width => exact absurd rfl (ha off width)
  | write off width v => exact (hostWrite_hostSide h).2

/-- Settles O14: a step is the service of the first access, in the state where only the later ones wait. -/
theorem accessesAreServedInOrder : Obligations.AccessesAreServedInOrder := by
  refine fun s => ⟨fun hidle => by rw [step, serveNext, hidle], fun a rest t ha h => ?_⟩
  rw [step_eq_serve ha] at h
  refine ⟨serve_accesses h, ?_, serve_reads_of_not_read (s := { s with accesses := rest }) h⟩
  rintro ⟨off, width, rfl⟩
  obtain ⟨v, rfl⟩ := hostRead_next h
  exact ⟨v, rfl⟩

/-! A recorded fault stays recorded until CLRF or Reset (R104). -/

/-- The access is none of the two that can take a recorded fault away: Reset, and the write of CLRF's value to
CMD (R104, R114). -/
def KeepsFault (a : HostAccess) : Prop := a ≠ .reset ∧ a ≠ .write 0x00 8 0x0000000001000000#64

theorem serve_fault_of_keepsFault (ha : KeepsFault a) (hs : s.fault = true) (h : serve a s = .next t) :
    t.fault = true := by
  obtain ⟨hreset, hclrf⟩ := ha
  cases a with
  | reset => exact absurd rfl hreset
  | read off width => obtain ⟨v, rfl⟩ := hostRead_next h; exact hs
  | write off width v =>
    rw [serve, hostWrite] at h
    cases hr : checkAccess off width with
    | error e => rw [hr] at h; cases h
    | ok r =>
      obtain ⟨rfl, rfl⟩ := checkAccess_ok hr
      rw [hr] at h
      cases r with
      | cmd =>
        have hdropped : executeCommand v s = .next s :=
          executeCommand_dropped hs fun hv => hclrf (hv ▸ rfl)
        cases hdropped.symm.trans h
        exact hs
      | din | dout | status | fcmd | finfo => cases h; exact hs

theorem step_fault_of_keepsFault (hl : ∀ a ∈ s.accesses, KeepsFault a) (hs : s.fault = true)
    (h : step s = .next t) : t.fault = true := by
  obtain rfl | ⟨a, rest, ha, hserve⟩ := step_cases h
  · exact hs
  · exact serve_fault_of_keepsFault (s := { s with accesses := rest }) (hl a (by simp [ha])) hs hserve

theorem mem_accesses_of_step (h : step s = .next t) (ha : a ∈ t.accesses) : a ∈ s.accesses := by
  obtain rfl | ⟨b, rest, hb, hserve⟩ := step_cases h
  · exact ha
  · rw [serve_accesses hserve] at ha
    exact hb ▸ List.mem_cons_of_mem b ha

theorem runSteps_fault_of_keepsFault (hl : ∀ a ∈ s.accesses, KeepsFault a) (hs : s.fault = true)
    (h : runSteps n s = .next t) : t.fault = true := by
  induction n generalizing s with
  | zero => cases h; exact hs
  | succ n ih =>
    obtain ⟨m, hstep, hrun⟩ := runSteps_succ.1 h
    exact ih (fun a ha => hl a (mem_accesses_of_step hstep ha)) (step_fault_of_keepsFault hl hs hstep) hrun

/-- A fault in the first state of such a run would last to its end, and the rest of the run is a run of the same
kind (R111). -/
theorem runSteps_noFault_throughout (hl : ∀ a ∈ s.accesses, KeepsFault a) (h : runSteps n s = .next t)
    (ht : t.fault = false) : ∀ k ≤ n, ∃ m, runSteps k s = .next m ∧ m.fault = false := by
  induction n generalizing s with
  | zero =>
    intro k hk
    exact ⟨t, Nat.le_zero.1 hk ▸ h, ht⟩
  | succ n ih =>
    intro k hk
    cases k with
    | zero =>
      have hs : s.fault ≠ true := fun hs => by simp [runSteps_fault_of_keepsFault hl hs h] at ht
      exact ⟨s, rfl, Bool.eq_false_of_not_eq_true hs⟩
    | succ k =>
      obtain ⟨u, hstep, hrun⟩ := runSteps_succ.1 h
      obtain ⟨m, hm, hmf⟩ :=
        ih (fun a ha => hl a (mem_accesses_of_step hstep ha)) hrun k (Nat.le_of_succ_le_succ hk)
      exact ⟨m, runSteps_succ.2 ⟨u, hstep, hm⟩, hmf⟩

/-- Settles O21: a fault on the way would still be recorded at the end. -/
theorem noFaultAtTheEndMeansNoneOnTheWay : Obligations.NoFaultAtTheEndMeansNoneOnTheWay := by
  intro p s t _ hp h ht
  exact runSteps_noFault_throughout (s := { s with accesses := p }) hp h ht

end Sys2Proof.Machine
end

section
/-! PROOFS. The invariant at reset (R26), and words of the table of encodings (R42 to R44, R47). -/

namespace Sys2Proof

/-- Settles O2: every valid bit is 0 after reset, and no fault is recorded. -/
theorem invHoldsAtReset : Obligations.InvHoldsAtReset := Machine.inv_reset

theorem decode_of_encode_eq {i : Instr} {w : Word} (hi : i.wellFormed = true) (h : encode i = w) :
    decode w = .ok i := h ▸ decodeOfEncode i hi

/-- Settles O7: the legal words are the encodings of their commands; the decoder is run on the three others. -/
theorem wordsOfTheEncodingTable : Obligations.WordsOfTheEncodingTable := by
  refine ⟨decode_of_encode_eq rfl ?_, decode_of_encode_eq rfl ?_, decode_of_encode_eq rfl ?_,
    decode_of_encode_eq rfl ?_, decode_of_encode_eq rfl ?_, decode_of_encode_eq rfl ?_,
    decode_of_encode_eq rfl ?_, decode_of_encode_eq rfl ?_, ?_, ?_, ?_⟩
  all_goals decide

end Sys2Proof
end
